-- ==== Sys2Proof/Word.lean ====
section
/-! DEFINITION. The fixed widths of GHCORE's values (00_scope.md R9, R10; 10_state.md R20; 30_encoding.md R81).
Every value of the block is unsigned (R9), so plain bit vectors carry them. -/

namespace Sys2Proof

/-- One 32-bit register of the window, and one command word (R61, R80). -/
abbrev Word := BitVec 32

/-- One byte of a block; byte 0 of a block is its most significant one (R10). -/
abbrev Byte := BitVec 8

/-- A 128-bit block or field element (R10, R100). -/
abbrev Block := BitVec 128

/-- A 64-bit length: a bit count (LENA, LENC) or a byte count (REM, the operands of CT_LEN). -/
abbrev Length := BitVec 64

/-- The N field of a command word (R81). -/
abbrev Count := BitVec 5

/-- A byte offset into the 256-byte window (R60). -/
abbrev Offset := BitVec 8

end Sys2Proof
end

