-- ==== Sys2Proof/Syntax.lean ====
section
/-! DEFINITION. The thirteen commands of the opcode map (30_encoding.md R83), one constructor per row of
spec/opcode_table.json. A command carries its N field exactly when R82 gives N a meaning; its 128-bit operands are
the registers OPA and OPB, which no command word holds (R80). -/

namespace Sys2Proof

/-- A command of GHCORE. `n` is the byte count N of R82, any value 0..31: a count outside 1..16 is a legal encoding
whose execution is rejected with BADCOUNT (R83, R183). -/
inductive Instr where
  /-- NOP, 0x00: no operation (R170). -/
  | nop
  /-- GF_MUL, 0x01: field multiply (R106). -/
  | gfMul
  /-- GF_ADD, 0x02: field add (R107). -/
  | gfAdd
  /-- ZERO, 0x0E: clear all state (R171). -/
  | zero
  /-- CLR_ERR, 0x0F: clear the recorded error (R172). -/
  | clrErr
  /-- GH_SETH, 0x10: load the hash subkey (R124). -/
  | ghSeth
  /-- GH_INIT, 0x11: start a GHASH (R125). -/
  | ghInit
  /-- GH_AAD, 0x12: absorb one block of associated data (R126). -/
  | ghAad (n : Count)
  /-- GH_CT, 0x13: absorb one ciphertext block (R127). -/
  | ghCt (n : Count)
  /-- GH_FINAL, 0x14: absorb the length block (R128). -/
  | ghFinal
  /-- CT_CLEAR, 0x20: start a comparison (R152). -/
  | ctClear
  /-- CT_LEN, 0x21: the length step of a comparison (R153). -/
  | ctLen
  /-- CT_FEED, 0x22: compare up to 16 byte pairs (R154). -/
  | ctFeed (n : Count)
  deriving DecidableEq, Repr

end Sys2Proof
end

