-- ==== Sys2Proof/Decode.lean ====
section
/-! DEFINITION. The command word (30_encoding.md R80 to R86): the decoder, total on all 2^32 words and rejecting by
name, and after it the encoder. -/

namespace Sys2Proof

/-- Why a word is illegal: the three cases of R84. Each makes the issue function record ILLEGAL (R182). -/
inductive DecodeError where
  /-- `RSVD != 0`. -/
  | reservedBits
  /-- `OPC` is not in the table of R83. -/
  | unassignedOpcode
  /-- `N != 0` on a command that takes no byte count. -/
  | countNotAllowed
  deriving DecidableEq, Repr

/-- `OPC = word[7:0]` (R81). -/
def opcField (w : Word) : BitVec 8 := w.extractLsb' 0 8

/-- `N = word[12:8]` (R81). -/
def countField (w : Word) : Count := w.extractLsb' 8 5

/-- `RSVD = word[31:13]` (R81). -/
def rsvdField (w : Word) : BitVec 19 := w.extractLsb' 13 19

/-- The three commands of R83 whose "uses N" column says yes. -/
def countedCommand (opc : BitVec 8) (n : Count) : Option Instr :=
  if opc = 0x12#8 then some (.ghAad n)
  else if opc = 0x13#8 then some (.ghCt n)
  else if opc = 0x22#8 then some (.ctFeed n)
  else none

/-- The ten commands of R83 whose "uses N" column says no. -/
def plainCommand (opc : BitVec 8) : Option Instr :=
  if opc = 0x00#8 then some .nop
  else if opc = 0x01#8 then some .gfMul
  else if opc = 0x02#8 then some .gfAdd
  else if opc = 0x0E#8 then some .zero
  else if opc = 0x0F#8 then some .clrErr
  else if opc = 0x10#8 then some .ghSeth
  else if opc = 0x11#8 then some .ghInit
  else if opc = 0x14#8 then some .ghFinal
  else if opc = 0x20#8 then some .ctClear
  else if opc = 0x21#8 then some .ctLen
  else none

/-- `Decode(word)` of R86, in the order of its checks. The count of a counted command is not checked here (R83). -/
def decode (w : Word) : Except DecodeError Instr :=
  if rsvdField w ≠ 0 then .error .reservedBits
  else
    match countedCommand (opcField w) (countField w) with
    | some i => .ok i
    | none =>
      match plainCommand (opcField w) with
      | some i => if countField w ≠ 0 then .error .countNotAllowed else .ok i
      | none => .error .unassignedOpcode

/-- The OPC column of R83. -/
def Instr.opcode : Instr → BitVec 8
  | .nop => 0x00#8
  | .gfMul => 0x01#8
  | .gfAdd => 0x02#8
  | .zero => 0x0E#8
  | .clrErr => 0x0F#8
  | .ghSeth => 0x10#8
  | .ghInit => 0x11#8
  | .ghAad _ => 0x12#8
  | .ghCt _ => 0x13#8
  | .ghFinal => 0x14#8
  | .ctClear => 0x20#8
  | .ctLen => 0x21#8
  | .ctFeed _ => 0x22#8

/-- The N field of a command's word: 0 for a command that takes no byte count (R81, R82). -/
def Instr.count : Instr → Count
  | .ghAad n => n
  | .ghCt n => n
  | .ctFeed n => n
  | .nop | .gfMul | .gfAdd | .zero | .clrErr | .ghSeth | .ghInit | .ghFinal | .ctClear | .ctLen => 0

/-- The command word `RSVD || N || OPC` with RSVD = 0 (the pattern string of R81). -/
def encode (i : Instr) : Word := 0#19 ++ i.count ++ i.opcode

/-- The bits R83 compares to select a command: all of them, less the N field of a counted command. -/
def Instr.mask : Instr → Word
  | .ghAad _ | .ghCt _ | .ctFeed _ => 0xFFFF_E0FF#32
  | .nop | .gfMul | .gfAdd | .zero | .clrErr | .ghSeth | .ghInit | .ghFinal | .ctClear | .ctLen => 0xFFFF_FFFF#32

/-- The command this decoder reads from an instruction whose bits are `w`, numbered as spec/opcode_table.json numbers
them. Every row has the 32 bits of R80's one format; bits above `nbits` are 0, so `w` is the whole word. -/
def decodeTableWord (_nbits w : Nat) : Option Instr :=
  if w < 2 ^ 32 then
    match decode (BitVec.ofNat 32 w) with
    | .ok i => some i
    | .error _ => none
  else none

end Sys2Proof
end

