-- ==== Sys2Proof/Machine/State.lean ====
section
/-! DEFINITION. The state of the machine as plain data: the record of 10_state.md R20, and three fields that are the
model's own (notes/assumptions/1.md, 2.md and 3.md): what the agents outside the block will do next, which agent acts in
a command's meaning, and the read data port. -/

namespace Sys2Proof.Machine

/-- The GHASH block-order state, a 3-bit field (R29). The codes 6 and 7 are never produced (R29, I12). -/
inductive Phase where
  /-- 0: not initialised since reset or ZERO. -/
  | idle
  /-- 1: initialised; only whole associated-data blocks, or none, absorbed so far. -/
  | aad
  /-- 2: the last associated-data block absorbed was partial. -/
  | aadp
  /-- 3: at least one ciphertext block absorbed, every one so far whole. -/
  | ct
  /-- 4: the last ciphertext block absorbed was partial. -/
  | ctp
  /-- 5: the length block is absorbed; Y holds the GHASH value. -/
  | done
  deriving DecidableEq, Repr

/-- The error codes of R181, a 3-bit field. The code 7 is never produced (R181, I11). -/
inductive ErrCode where
  /-- 0, NONE. -/
  | noError
  /-- 1, ILLEGAL (R182). -/
  | illegal
  /-- 2, BADCOUNT (R183). -/
  | badCount
  /-- 3, ORDER (R184). -/
  | order
  /-- 4, NOKEY (R185). -/
  | noKey
  /-- 5, LENOVF (R186). -/
  | lenOvf
  /-- 6, BUSY (R187). -/
  | busy
  deriving DecidableEq, Repr

/-- The record `{opc, n, a, b}` of R34: the accepted command (its constructor is the opcode and carries N) and the
values of OPA and OPB latched at issue. -/
structure Inflight where
  instr : Instr
  a : Block
  b : Block
  deriving DecidableEq, Repr

/-- The two host access primitives of 20_memory.md R62. -/
inductive Access where
  /-- `HostRead(off)`. -/
  | read (off : Offset)
  /-- `HostWrite(off, v)`. -/
  | write (off : Offset) (v : Word)
  deriving DecidableEq, Repr

/-- One step of one of the three agents of 00_scope.md R7. -/
inductive Event where
  /-- The host reads or writes a register (R62). -/
  | access (acc : Access)
  /-- The engine takes its step `Complete` (R191). -/
  | complete
  /-- The reset input is high for a cycle, with the host access of that same cycle if there is one (R210). -/
  | reset (during : Option Access)
  deriving DecidableEq, Repr

/-- The agent that acts in a command's meaning: the host issues the command (R190), or the engine completes it
(R191). -/
inductive Agent where
  | host
  | engine
  deriving DecidableEq, Repr

/-- The state of GHCORE (R20), field for field, and the model's own fields `agenda`, `turn` and `rdata`. -/
structure State where
  /-- Operand A (R21). -/
  opa : Block
  /-- Operand B (R22). -/
  opb : Block
  /-- Result of GF_MUL and GF_ADD (R23). -/
  res : Block
  /-- GHASH accumulator (R24). -/
  y : Block
  /-- Bit length of the associated data absorbed (R25). -/
  lena : Length
  /-- Bit length of the ciphertext absorbed (R26). -/
  lenc : Length
  /-- Hash subkey; no host access path (R27). -/
  h : Block
  /-- A subkey has been loaded (R28). -/
  hvalid : Bool
  /-- GHASH block-order state (R29). -/
  phase : Phase
  /-- Comparator: some compared byte pair differed (R30). -/
  diff : Bool
  /-- Comparator: the two lengths differed (R31). -/
  lenmis : Bool
  /-- Comparator: the length check has been done (R31). -/
  armed : Bool
  /-- Comparator: bytes still to be fed (R31). -/
  rem : Length
  /-- First error recorded, or none (R33). -/
  errcode : ErrCode
  /-- The accepted command not yet completed (R34). -/
  inflight : Option Inflight
  /-- The model's own: what the agents do next, in the one total order of R70, first event first. Outside input. -/
  agenda : List Event
  /-- The model's own: the agent acting in the current command meaning. -/
  turn : Agent
  /-- The model's own: the read data port `bus_rdata` (D2), the value the last host read returned. -/
  rdata : Word
  deriving DecidableEq, Repr

/-- Why a step can stop with a fault: there is NO reason. "No behaviour of GHCORE is treated as `fault`, `stuck` or
`refuse`" (93_implementation_defined.md); every host access has a defined outcome (R8). Nobody raises one. -/
inductive Fault where
  deriving DecidableEq, Repr

/-- Why a step can be refused. -/
inductive Refusal where
  /-- Raised only by an arm of `exec` whose instruction has no meaning yet; no arm is such, so nobody raises it.
  Safe: the run stops. -/
  | notModelled (mnemonic : String)
  deriving DecidableEq, Repr

/-- The machine right after reset (R42, R210, R211): every register 0, PHASE = IDLE, nothing in flight. No value is
left unspecified by the spec. The model's own fields: nothing scheduled, the host to act, and the read data port at 0
(notes/assumptions/1.md, 2.md and 3.md). -/
def State.reset : State where
  opa := 0
  opb := 0
  res := 0
  y := 0
  lena := 0
  lenc := 0
  h := 0
  hvalid := false
  phase := .idle
  diff := false
  lenmis := false
  armed := false
  rem := 0
  errcode := .noError
  inflight := none
  agenda := []
  turn := .host
  rdata := 0

end Sys2Proof.Machine
end

