-- ==== Sys2Proof/Machine/Flags.lean ====
section
/-! DEFINITION. The flags, all functions of the state, and the STATUS register (10_state.md R29, R32 to R36, R40). -/

namespace Sys2Proof.Machine

/-- The value column of R29. -/
def Phase.code : Phase → BitVec 3
  | .idle => 0
  | .aad => 1
  | .aadp => 2
  | .ct => 3
  | .ctp => 4
  | .done => 5

/-- The code column of R181. -/
def ErrCode.code : ErrCode → BitVec 3
  | .noError => 0
  | .illegal => 1
  | .badCount => 2
  | .order => 3
  | .noKey => 4
  | .lenOvf => 5
  | .busy => 6

/-- `BUSY = (INFLIGHT != none)` (R34). -/
def State.busy (s : State) : Bool := s.inflight.isSome

/-- `ERR = (ERRCODE != 0)` (R33). -/
def State.err (s : State) : Bool := s.errcode != .noError

/-- `CMP_EQ = ARMED and (REM == 0) and (LENMIS == 0) and (DIFF == 0)` (R32). -/
def State.cmpEq (s : State) : Bool := s.armed && s.rem == 0 && !s.lenmis && !s.diff

/-- A flag as a 32-bit value. -/
def flagWord (b : Bool) : Word := if b then 1 else 0

/-- `STATUS = BUSY | ERR<<1 | ERRCODE<<4 | HVALID<<8 | PHASE<<9 | CMP_EQ<<12` (R36). -/
def State.status (s : State) : Word :=
  flagWord s.busy ||| flagWord s.err <<< 1 ||| s.errcode.code.zeroExtend 32 <<< 4
    ||| flagWord s.hvalid <<< 8 ||| s.phase.code.zeroExtend 32 <<< 9 ||| flagWord s.cmpEq <<< 12

end Sys2Proof.Machine
end

