-- ==== Sys2Proof/Config.lean ====
section
/-! DEFINITION. The implementation parameters that 00_scope.md R4 leaves OPEN. Each is an opaque constant: nothing can
be proved of its value. The model has no time and addresses by offset (R219, D41), so no step reads them; they are here
because R4 asks a model to take each, and R218's latency table and R12's bus addresses are written in terms of them. -/

namespace Sys2Proof.Config

/-- `LAT_MUL - 1`: R4 fixes only that `LAT_MUL` is an integer of at least 1. -/
opaque latMulPred : Nat

/-- `LAT_SIMPLE - 1`: R4 fixes only that `LAT_SIMPLE` is an integer of at least 1. -/
opaque latSimplePred : Nat

/-- `BASE_ADDR`: where the platform places the window (R4, R60). -/
opaque baseAddr : Nat

/-- The multiplier structures R4 names; R105 lets an implementation use any other as well. -/
inductive MulArch where
  | karatsuba
  | comb
  | other
  deriving DecidableEq, Repr, Inhabited

/-- `MUL_ARCH` (R4, R105): it has no architectural effect. -/
opaque mulArch : MulArch

/-- `LAT_MUL` (R4): cycles from issue to completion of GF_MUL, GH_AAD, GH_CT and GH_FINAL. -/
noncomputable def latMul : Nat := latMulPred + 1

/-- `LAT_SIMPLE` (R4): cycles from issue to completion of every other accepted command. -/
noncomputable def latSimple : Nat := latSimplePred + 1

end Sys2Proof.Config
end

