-- ==== Sys2Proof/Machine/Operands.lean ====
section
/-! DEFINITION. How operands are named and cut: the register map (20_memory.md R61 to R63), the words of a 128-bit
register (R65), the byte count (30_encoding.md R82), zero padding (41_ghash.md R121), the length operands of CT_LEN
(42_ctcompare.md R153) and the length block (41_ghash.md R122). -/

namespace Sys2Proof.Machine

/-- What stands at a word of the window (R61). -/
inductive Reg where
  | id
  | cmd
  | status
  | opa (k : Fin 4)
  | opb (k : Fin 4)
  | res (k : Fin 4)
  | y (k : Fin 4)
  | lenaHi
  | lenaLo
  | lencHi
  | lencLo
  | reserved
  deriving DecidableEq, Repr

/-- The word offset `off & 0xFC`: the block ignores `off[1:0]` (R63). -/
def wordOffset (off : Offset) : Offset := off &&& 0xFC#8

/-- The word number k = (w*4 - base)/4 of R62 inside a group of four words at `base`. -/
def wordNumber (off : Offset) (base : Nat) : Fin 4 := Fin.ofNat 4 (((wordOffset off).toNat - base) / 4)

/-- The register map of R61, by the case distinction of R62. -/
def regAt (off : Offset) : Reg :=
  let w := (wordOffset off).toNat
  if w = 0x00 then .id
  else if w = 0x04 then .cmd
  else if w = 0x08 then .status
  else if 0x10 ≤ w ∧ w ≤ 0x1C then .opa (wordNumber off 0x10)
  else if 0x20 ≤ w ∧ w ≤ 0x2C then .opb (wordNumber off 0x20)
  else if 0x30 ≤ w ∧ w ≤ 0x3C then .res (wordNumber off 0x30)
  else if 0x40 ≤ w ∧ w ≤ 0x4C then .y (wordNumber off 0x40)
  else if w = 0x50 then .lenaHi
  else if w = 0x54 then .lenaLo
  else if w = 0x58 then .lencHi
  else if w = 0x5C then .lencLo
  else .reserved

/-- The offset of CMD (R61). -/
def cmdOffset : Offset := 0x04#8

/-- The bus address of an offset: `BASE_ADDR + off` (R12, R60). -/
noncomputable def busAddress (off : Offset) : Nat := Config.baseAddr + off.toNat

/-- Word k of a 128-bit register: `X[127-32k : 96-32k]` (R65). -/
def getWord (x : Block) (k : Fin 4) : Word := x.extractLsb' (96 - 32 * k.val) 32

/-- `X[127-32k : 96-32k] <- v`: only that word changes (R62). -/
def setWord (x : Block) (k : Fin 4) (v : Word) : Block :=
  (x &&& ~~~(0xFFFFFFFF#128 <<< (96 - 32 * k.val))) ||| (v.zeroExtend 128 <<< (96 - 32 * k.val))

/-- The upper half of a 64-bit counter, read at the HI offset (R61, R66). -/
def hiWord (x : Length) : Word := x.extractLsb' 32 32

/-- The lower half of a 64-bit counter, read at the LO offset (R61, R66). -/
def loWord (x : Length) : Word := x.extractLsb' 0 32

/-- The check `1 <= n <= 16` of R82, made when a counted command is issued (R183). -/
def countOk (n : Count) : Bool := 1 ≤ n.toNat && n.toNat ≤ 16

/-- `pad_n(V) = V AND NOT (2^(8*(16-n)) - 1)` (R121): keeps bytes 0..n-1, clears bytes n..15. -/
def pad (n : Count) (v : Block) : Block := v &&& ~~~(BitVec.ofNat 128 (2 ^ (8 * (16 - n.toNat)) - 1))

/-- A byte count as a 64-bit number of bytes. -/
def byteCount (n : Count) : Length := BitVec.ofNat 64 n.toNat

/-- The bits that n absorbed bytes add to a length counter: `8*n` (R25). -/
def bitCount (n : Count) : Length := BitVec.ofNat 64 (8 * n.toNat)

/-- Whether `counter + 8*n` would exceed `2^64 - 1` (R186). -/
def passesBound (counter : Length) (n : Count) : Bool := decide (2 ^ 64 - 1 < counter.toNat + 8 * n.toNat)

/-- The length operand of CT_LEN: bits 63:0 of a latched operand (R153, R66). -/
def lengthOperand (x : Block) : Length := x.extractLsb' 0 64

/-- The length block `L = LENA || LENC` (R122). -/
def lengthBlock (lena lenc : Length) : Block := lena ++ lenc

end Sys2Proof.Machine
end

