-- ==== Sys2Proof/Machine/Ops.lean ====
section
/-! DEFINITION. The shared operations: host reads and operand writes (20_memory.md R62, R64), recording an error and
clearing it (60_exceptions.md R180, R188), issuing a command (R190), completing one (R191), and clearing the state
(10_state.md R42). -/

namespace Sys2Proof.Machine

/-- `HostRead(off)` of R62: the value a read returns. CMD and reserved words read 0 (R64). -/
def readReg (r : Reg) (s : State) : Word :=
  match r with
  | .id => 0x47480001#32
  | .status => s.status
  | .opa k => getWord s.opa k
  | .opb k => getWord s.opb k
  | .res k => getWord s.res k
  | .y k => getWord s.y k
  | .lenaHi => hiWord s.lena
  | .lenaLo => loWord s.lena
  | .lencHi => hiWord s.lenc
  | .lencLo => loWord s.lenc
  | .cmd => 0
  | .reserved => 0

/-- `HostRead(off)` (R62). -/
def hostRead (off : Offset) (s : State) : Word := readReg (regAt off) s

/-- The part of `HostWrite(off, v)` that does not issue a command (R62): OPA and OPB words are written, every other
word ignores the write (R64). -/
def writeOperand (r : Reg) (v : Word) (s : State) : State :=
  match r with
  | .opa k => { s with opa := setWord s.opa k v }
  | .opb k => { s with opb := setWord s.opb k v }
  | .id | .cmd | .status | .res _ | .y _ | .lenaHi | .lenaLo | .lencHi | .lencLo | .reserved => s

/-- What the agents do after the event that happens now (R70). -/
def schedule (rest : List Event) (s : State) : State := { s with agenda := rest }

/-- The agent whose step this is (R7). -/
def actAs (agent : Agent) (s : State) : State := { s with turn := agent }

/-- `INFLIGHT <- none` (R191). -/
def freeSlot (s : State) : State := { s with inflight := none }

/-- `raise Error(code)` of R188, this block's "trap entry" (R180): the first error wins, and nothing else changes. -/
def raise (c : ErrCode) (s : State) : State :=
  if s.errcode = .noError then { s with errcode := c } else s

/-- `ERRCODE <- 0`, this block's "trap return" (R180), applied when CLR_ERR or ZERO is accepted (R190). -/
def clearError (s : State) : State := { s with errcode := .noError }

/-- The commands accepted while ERR = 1: NOP, CLR_ERR and ZERO (R189). -/
def acceptedInError : Instr → Bool
  | .nop | .clrErr | .zero => true
  | .gfMul | .gfAdd | .ghSeth | .ghInit | .ghAad _ | .ghCt _ | .ghFinal | .ctClear | .ctLen | .ctFeed _ => false

/-- The commands whose acceptance clears ERRCODE: CLR_ERR and ZERO (R190). -/
def clearsError : Instr → Bool
  | .clrErr | .zero => true
  | .nop | .gfMul | .gfAdd | .ghSeth | .ghInit | .ghAad _ | .ghCt _ | .ghFinal | .ctClear | .ctLen | .ctFeed _ => false

/-- `INFLIGHT <- {opc, n, a: OPA, b: OPB}`: the latch of R190. -/
def latch (i : Instr) (s : State) : State := { s with inflight := some ⟨i, s.opa, s.opb⟩ }

/-- Accepting a command (the last two lines of R190's `IssueCommand`). -/
def accept (i : Instr) (s : State) : State := latch i (if clearsError i then clearError s else s)

/-- `IssueCommand` of R190 for a legal word, after decoding: BUSY, then the ERR block, then the command's own first
failing check `rejection`, then acceptance. -/
def issue (i : Instr) (rejection : Option ErrCode) (s : State) : State :=
  if s.busy then raise .busy s
  else if s.err && !acceptedInError i then s
  else
    match rejection with
    | some c => raise c s
    | none => accept i s

/-- `IssueCommand` of R190 for an illegal word: BUSY is reported before ILLEGAL (R192). -/
def issueIllegal (s : State) : State :=
  if s.busy then raise .busy s else raise .illegal s

/-- `Complete` of R191 for the command `i`: its effect on the latched operands, and the slot freed. Where `i` is not
the command in flight, `Complete` is not enabled for it and nothing happens. -/
def finish (i : Instr) (effect : Block → Block → State → State) (s : State) : State :=
  match s.inflight with
  | some f => if f.instr = i then freeSlot (effect f.a f.b s) else s
  | none => s

/-- The two halves of a command's meaning (R13): its issue checks when the host issues it, its effect when the engine
completes it. -/
def runCommand (i : Instr) (rejection : Option ErrCode) (effect : Block → Block → State → State) (s : State) :
    Host.Outcome State Fault Refusal :=
  match s.turn with
  | .host => .next (issue i rejection s)
  | .engine => .next (finish i effect s)

/-- The "effect at completion" of ZERO (R171): every piece of state but ERRCODE and INFLIGHT at its reset value. -/
def clearRegisters (s : State) : State :=
  { s with
    opa := 0, opb := 0, res := 0, y := 0, lena := 0, lenc := 0
    h := 0, hvalid := false, phase := .idle
    diff := false, lenmis := false, armed := false, rem := 0 }

/-- `Reset` of R210: every piece of state at its reset value, and the command in flight abandoned. -/
def applyReset (s : State) : State :=
  actAs .host (freeSlot (clearError (clearRegisters s)))

end Sys2Proof.Machine
end

