-- ==== Sys2Proof/Machine/Comparator.lean ====
section
/-! DEFINITION. The comparator commands CT_CLEAR, CT_LEN and CT_FEED (42_ctcompare.md R152 to R154). -/

namespace Sys2Proof.Machine

/-- Effect at completion of CT_CLEAR: `DIFF <- 0; LENMIS <- 0; ARMED <- 0; REM <- 0` (R152). -/
def effectCtClear (_a _b : Block) (s : State) : State :=
  { s with diff := false, lenmis := false, armed := false, rem := 0 }

/-- CT_CLEAR (R152): no command-specific check. -/
def execCtClear (s : State) : Host.Outcome State Fault Refusal := runCommand .ctClear none effectCtClear s

/-- `ARMED = 0`, else ORDER (R153). -/
def checkCtLen (s : State) : Option ErrCode := if s.armed then some .order else none

/-- Effect at completion of CT_LEN: `LENMIS <- (la != lb); ARMED <- 1; REM <- la` (R153). -/
def effectCtLen (a b : Block) (s : State) : State :=
  { s with lenmis := lengthOperand a != lengthOperand b, armed := true, rem := lengthOperand a }

/-- CT_LEN (R153). -/
def execCtLen (s : State) : Host.Outcome State Fault Refusal := runCommand .ctLen (checkCtLen s) effectCtLen s

/-- `1 <= n <= 16`, else BADCOUNT; `ARMED = 1`, else ORDER; `n <= REM`, else LENOVF (R154). -/
def checkCtFeed (n : Count) (s : State) : Option ErrCode :=
  if !countOk n then some .badCount
  else if !s.armed then some .order
  else if s.rem.toNat < n.toNat then some .lenOvf
  else none

/-- Effect at completion of CT_FEED: `d <- pad_n(a XOR b); DIFF <- DIFF or (d != 0); REM <- REM - n` (R154). -/
def effectCtFeed (n : Count) (a b : Block) (s : State) : State :=
  { s with diff := s.diff || pad n (a ^^^ b) != 0, rem := s.rem - byteCount n }

/-- CT_FEED (R154). -/
def execCtFeed (n : Count) (s : State) : Host.Outcome State Fault Refusal :=
  runCommand (.ctFeed n) (checkCtFeed n s) (effectCtFeed n) s

end Sys2Proof.Machine
end

