-- ==== Sys2Proof/Machine/Control.lean ====
section
/-! DEFINITION. The control commands NOP, ZERO and CLR_ERR (43_control.md R170 to R172). The effect at issue of ZERO
and CLR_ERR, `ERRCODE <- 0`, is part of the shared issue function (R190). -/

namespace Sys2Proof.Machine

/-- Effect at completion of NOP: none (R170). -/
def effectNop (_a _b : Block) (s : State) : State := s

/-- NOP (R170). -/
def execNop (s : State) : Host.Outcome State Fault Refusal := runCommand .nop none effectNop s

/-- Effect at completion of ZERO: every piece of state but ERRCODE takes its reset value (R171, R42). -/
def effectZero (_a _b : Block) (s : State) : State := clearRegisters s

/-- ZERO (R171). -/
def execZero (s : State) : Host.Outcome State Fault Refusal := runCommand .zero none effectZero s

/-- Effect at completion of CLR_ERR: none (R172). -/
def effectClrErr (_a _b : Block) (s : State) : State := s

/-- CLR_ERR (R172). -/
def execClrErr (s : State) : Host.Outcome State Fault Refusal := runCommand .clrErr none effectClrErr s

end Sys2Proof.Machine
end

