-- ==== Sys2Proof/Machine/Field.lean ====
section
/-! DEFINITION. GF(2^128) arithmetic in GCM's convention (40_gf128.md R100 to R104). -/

namespace Sys2Proof.Machine

/-- Field addition, R102: bitwise exclusive-or. -/
def gfadd (a b : Block) : Block := a ^^^ b

/-- The reduction constant `0xE1 || 0^120`, the image of x^128 (R104). -/
def reduction : Block := 0xE1000000000000000000000000000000#128

/-- One update of `v` in R104: the product of `v` by x. -/
def mulX (v : Block) : Block :=
  if v.getLsbD 0 then (v >>> 1) ^^^ reduction else v >>> 1

/-- `v` of R104 before iteration `i`: the product of `b` by x^i. -/
def mulXPow (b : Block) : Nat → Block
  | 0 => b
  | i + 1 => mulX (mulXPow b i)

/-- `z` of R104 before iteration `i`. -/
def gfmulAcc (a b : Block) : Nat → Block
  | 0 => 0
  | i + 1 => if a.getLsbD (127 - i) then gfmulAcc a b i ^^^ mulXPow b i else gfmulAcc a b i

/-- Field multiplication in the bit-serial form of R104, the function of R103. -/
def gfmul (a b : Block) : Block := gfmulAcc a b 128

end Sys2Proof.Machine
end

