-- ==== Sys2Proof/Machine/Gf.lean ====
section
/-! DEFINITION. The field commands GF_MUL and GF_ADD (40_gf128.md R106, R107). -/

namespace Sys2Proof.Machine

/-- Effect at completion of GF_MUL: `RES <- gfmul(a, b)` (R106). -/
def effectGfMul (a b : Block) (s : State) : State := { s with res := gfmul a b }

/-- GF_MUL (R106): no command-specific check. -/
def execGfMul (s : State) : Host.Outcome State Fault Refusal := runCommand .gfMul none effectGfMul s

/-- Effect at completion of GF_ADD: `RES <- a XOR b` (R107). -/
def effectGfAdd (a b : Block) (s : State) : State := { s with res := gfadd a b }

/-- GF_ADD (R107): no command-specific check. -/
def execGfAdd (s : State) : Host.Outcome State Fault Refusal := runCommand .gfAdd none effectGfAdd s

end Sys2Proof.Machine
end

