-- ==== Sys2Proof/Machine/Ghash.lean ====
section
/-! DEFINITION. The GHASH commands GH_SETH, GH_INIT, GH_AAD, GH_CT and GH_FINAL (41_ghash.md R121 to R128): for each,
its own issue checks in the order its rule lists them, and its effect at completion. -/

namespace Sys2Proof.Machine

/-- One step of the accumulator: `Y <- gfmul(Y XOR B, H)` (R126, R127, R128). -/
def absorb (block : Block) (s : State) : Block := gfmul (s.y ^^^ block) s.h

/-- `PHASE in {IDLE, DONE}`, else ORDER (R124). -/
def checkGhSeth (s : State) : Option ErrCode :=
  if s.phase = .idle ∨ s.phase = .done then none else some .order

/-- Effect at completion of GH_SETH: `H <- a; HVALID <- 1` (R124). -/
def effectGhSeth (a _b : Block) (s : State) : State := { s with h := a, hvalid := true }

/-- GH_SETH (R124). -/
def execGhSeth (s : State) : Host.Outcome State Fault Refusal := runCommand .ghSeth (checkGhSeth s) effectGhSeth s

/-- `HVALID = 1`, else NOKEY (R125). -/
def checkGhInit (s : State) : Option ErrCode := if s.hvalid then none else some .noKey

/-- Effect at completion of GH_INIT: `Y <- 0; LENA <- 0; LENC <- 0; PHASE <- AAD` (R125). -/
def effectGhInit (_a _b : Block) (s : State) : State := { s with y := 0, lena := 0, lenc := 0, phase := .aad }

/-- GH_INIT (R125). -/
def execGhInit (s : State) : Host.Outcome State Fault Refusal := runCommand .ghInit (checkGhInit s) effectGhInit s

/-- `1 <= n <= 16`, else BADCOUNT; `PHASE = AAD`, else ORDER; `LENA + 8*n <= 2^64 - 1`, else LENOVF (R126). -/
def checkGhAad (n : Count) (s : State) : Option ErrCode :=
  if !countOk n then some .badCount
  else if s.phase ≠ .aad then some .order
  else if passesBound s.lena n then some .lenOvf
  else none

/-- Effect at completion of GH_AAD (R126). -/
def effectGhAad (n : Count) (a _b : Block) (s : State) : State :=
  { s with
    y := absorb (pad n a) s
    lena := s.lena + bitCount n
    phase := if n = 16 then .aad else .aadp }

/-- GH_AAD (R126). -/
def execGhAad (n : Count) (s : State) : Host.Outcome State Fault Refusal :=
  runCommand (.ghAad n) (checkGhAad n s) (effectGhAad n) s

/-- `1 <= n <= 16`, else BADCOUNT; `PHASE in {AAD, AADP, CT}`, else ORDER; `LENC + 8*n <= 2^64 - 1`, else LENOVF
(R127). -/
def checkGhCt (n : Count) (s : State) : Option ErrCode :=
  if !countOk n then some .badCount
  else if ¬(s.phase = .aad ∨ s.phase = .aadp ∨ s.phase = .ct) then some .order
  else if passesBound s.lenc n then some .lenOvf
  else none

/-- Effect at completion of GH_CT (R127). -/
def effectGhCt (n : Count) (a _b : Block) (s : State) : State :=
  { s with
    y := absorb (pad n a) s
    lenc := s.lenc + bitCount n
    phase := if n = 16 then .ct else .ctp }

/-- GH_CT (R127). -/
def execGhCt (n : Count) (s : State) : Host.Outcome State Fault Refusal :=
  runCommand (.ghCt n) (checkGhCt n s) (effectGhCt n) s

/-- `PHASE in {AAD, AADP, CT, CTP}`, else ORDER (R128). -/
def checkGhFinal (s : State) : Option ErrCode :=
  if s.phase = .aad ∨ s.phase = .aadp ∨ s.phase = .ct ∨ s.phase = .ctp then none else some .order

/-- Effect at completion of GH_FINAL (R128). -/
def effectGhFinal (_a _b : Block) (s : State) : State :=
  { s with y := absorb (lengthBlock s.lena s.lenc) s, phase := .done }

/-- GH_FINAL (R128). -/
def execGhFinal (s : State) : Host.Outcome State Fault Refusal := runCommand .ghFinal (checkGhFinal s) effectGhFinal s

end Sys2Proof.Machine
end

