-- ==== Sys2Proof/Machine/Dispatch.lean ====
section
/-! DEFINITION. One arm per command of the opcode map (30_encoding.md R83). -/

namespace Sys2Proof.Machine

def exec (i : Instr) (s : State) : Host.Outcome State Fault Refusal :=
  match i with
  | .nop => Sys2Proof.Machine.execNop s
  | .gfMul => Sys2Proof.Machine.execGfMul s
  | .gfAdd => Sys2Proof.Machine.execGfAdd s
  | .zero => Sys2Proof.Machine.execZero s
  | .clrErr => Sys2Proof.Machine.execClrErr s
  | .ghSeth => Sys2Proof.Machine.execGhSeth s
  | .ghInit => Sys2Proof.Machine.execGhInit s
  | .ghAad n => Sys2Proof.Machine.execGhAad n s
  | .ghCt n => Sys2Proof.Machine.execGhCt n s
  | .ghFinal => Sys2Proof.Machine.execGhFinal s
  | .ctClear => Sys2Proof.Machine.execCtClear s
  | .ctLen => Sys2Proof.Machine.execCtLen s
  | .ctFeed n => Sys2Proof.Machine.execCtFeed n s

end Sys2Proof.Machine
end

