-- ==== Sys2Proof/Machine/Bus.lean ====
section
/-! DEFINITION. The steps of the three agents (00_scope.md R7): the host's accesses (20_memory.md R62), the engine's
`Complete` (60_exceptions.md R191), the reset input (70_reset_and_hazards.md R210), and the one total order in which
they happen (R70). -/

namespace Sys2Proof.Machine

/-- `IssueCommand(word)` of R190: a write to CMD, decoded and issued by the host. -/
def issueWord (w : Word) (s : State) : Host.Outcome State Fault Refusal :=
  match decode w with
  | .ok i => exec i (actAs .host s)
  | .error _ => .next (issueIllegal (actAs .host s))

/-- `HostWrite(off, v)` of R62: the word at CMD is issued, an OPA or OPB word is written, any other write is
ignored. -/
def hostWrite (off : Offset) (v : Word) (s : State) : Host.Outcome State Fault Refusal :=
  if regAt off = .cmd then issueWord v s else .next (writeOperand (regAt off) v s)

/-- A host read: the value goes to the read data port, and no state of the block changes (R62, R68). -/
def readStep (off : Offset) (s : State) : State := { s with rdata := hostRead off s }

/-- `Complete` of R191: enabled exactly when a command is in flight. Where none is, nothing happens. -/
def complete (s : State) : Host.Outcome State Fault Refusal :=
  match s.inflight with
  | some f => exec f.instr (actAs .engine s)
  | none => .next s

/-- A cycle with `rst = 1` (R210): the state is the reset state, a write in the same cycle is lost, and a read in the
same cycle returns the register's reset value. -/
def resetStep (during : Option Access) (s : State) : State :=
  match during with
  | some (.read off) => readStep off (applyReset s)
  | some (.write _ _) => applyReset s
  | none => applyReset s

/-- The step of the agent that acts. -/
def runEvent (e : Event) (s : State) : Host.Outcome State Fault Refusal :=
  match e with
  | .access (.read off) => .next (readStep off s)
  | .access (.write off v) => hostWrite off v s
  | .complete => complete s
  | .reset during => .next (resetStep during s)

/-- The next event of the total order happens; with nothing scheduled, the engine completes the command in flight, if
there is one (R219's weak fairness), and otherwise the block waits idle (R212). -/
def runAgenda (s : State) : Host.Outcome State Fault Refusal :=
  match s.agenda with
  | e :: rest => runEvent e (schedule rest s)
  | [] => complete s

/-- The host's next access is the write of `w` to CMD. -/
def scheduleCommand (s : State) (w : Word) : State :=
  schedule (.access (.write cmdOffset w) :: s.agenda) s

end Sys2Proof.Machine
end

