-- ==== Sys2Proof/Machine/Step.lean ====
section
/-! DEFINITION. One step of the machine: the next event of the one total order (20_memory.md R70). -/

namespace Sys2Proof.Machine

/-- One step. -/
def step (s : State) : Host.Outcome State Fault Refusal := runAgenda s

/-- `s` with the host about to write the command word `w` to CMD: the block fetches nothing (10_state.md R38), and a
command enters by that write alone (notes/assumptions/4.md). -/
def State.withFetchWord (s : State) (_nbits w : Nat) : State := scheduleCommand s (BitVec.ofNat 32 w)

end Sys2Proof.Machine
end

