-- ==== Sys2Proof/Machine/Run.lean ====
section
/-! DEFINITION. The end of a run (70_reset_and_hazards.md R220): when the host's finite program is over, the state it
ends in, and what is observed there. -/

namespace Sys2Proof.Machine

/-- The event is a step of the host (R7, R62), in a reset cycle or not. -/
def isHostStep : Event → Bool
  | .access _ => true
  | .complete => false
  | .reset during => during.isSome

/-- Condition 1 of R220: "the host has made its last access". -/
def hostDone (s : State) : Bool := s.agenda.all fun e => !isHostStep e

/-- Both conditions of R220: the host has made its last access, and `INFLIGHT = none`. -/
def runEnded (s : State) : Bool := hostDone s && !s.busy

/-- The first state at which the run has ended, looked for within `fuel` steps. -/
def runToEnd : Nat → State → State
  | 0, s => s
  | fuel + 1, s =>
    if runEnded s then s
    else
      match step s with
      | .next t => runToEnd fuel t
      | .fault _ => s
      | .refused _ => s

/-- The state at the end of the run scheduled in `s` (R220). Each event takes one step, and the command in flight after
the last one takes one more (R219). -/
def endOfRun (s : State) : State := runToEnd (s.agenda.length + 1) s

/-- The observation at the end of a run, "the whole state of 10_state.md rule R20" (R220): every field of the record,
with the model's own fields blanked. -/
def observation (s : State) : State := { s with agenda := [], turn := .host, rdata := 0 }

end Sys2Proof.Machine
end

