-- ==== Sys2Proof/Machine/Timing.lean ====
section
/-! DEFINITION. The latency table (70_reset_and_hazards.md R218) in terms of the OPEN parameters. "This table is timing.
No rule of the model depends on it": no step reads it. -/

namespace Sys2Proof.Machine

/-- Cycles from the CMD write of an accepted command to its completion (R218). -/
noncomputable def latency : Instr → Nat
  | .gfMul | .ghAad _ | .ghCt _ | .ghFinal => Config.latMul
  | .gfAdd | .ghSeth | .ghInit | .ctClear | .ctLen | .ctFeed _ | .nop | .zero | .clrErr => Config.latSimple

end Sys2Proof.Machine
end

