-- ==== Sys2Proof/Safety.lean ====
section
/-! DEFINITION. The terms in which claims are made: the launch premises of 70_reset_and_hazards.md R222, `Check` of
60_exceptions.md R190 as one function, and the invariant of every run. -/

namespace Sys2Proof.Machine

/-- The two states hold the same values in every field of R20, whatever the model's own fields hold. -/
def State.sameBlock (s t : State) : Prop :=
  { s with agenda := t.agenda, turn := t.turn, rdata := t.rdata } = t

/-- `Quiet(s)` of R222: nothing is in flight. -/
abbrev State.Quiet (s : State) : Prop := s.inflight = none

/-- `NoError(s)` of R222: no error is recorded. -/
abbrev State.NoError (s : State) : Prop := s.errcode = .noError

/-- `CleanEntry(s)` of R222. -/
abbrev State.CleanEntry (s : State) : Prop := s.Quiet ∧ s.NoError

/-- `KeyLoaded(s, h)` of R222. -/
abbrev State.KeyLoaded (s : State) (h : Block) : Prop := s.hvalid = true ∧ s.h = h

/-- `ResetState(s)` of R222: every field of R20 at its reset value. -/
def State.ResetState (s : State) : Prop := s.sameBlock State.reset

/-- R220: the run scheduled in `s` ends after `k` steps in `t`, the first state at which the host has made its last
access and nothing is in flight. -/
structure RunEndsAt (k : Nat) (s t : State) : Prop where
  /-- `t` is the state after `k` steps. -/
  reached : Host.Core.run Sys2Proof.core k s = .next t
  /-- The host has made its last access. -/
  lastAccess : ∀ e ∈ t.agenda, isHostStep e = false
  /-- `INFLIGHT = none`. -/
  quiet : t.Quiet
  /-- No earlier state has both. -/
  first : ∀ j < k, ∀ u, Host.Core.run Sys2Proof.core j s = .next u →
    u.Quiet → ∃ e ∈ u.agenda, isHostStep e = true

/-- `Check(opc, n)` of R190: the command's own first failing check. -/
def checkOf (i : Instr) (s : State) : Option ErrCode :=
  match i with
  | .nop | .gfMul | .gfAdd | .zero | .clrErr | .ctClear => none
  | .ghSeth => checkGhSeth s
  | .ghInit => checkGhInit s
  | .ghAad n => checkGhAad n s
  | .ghCt n => checkGhCt n s
  | .ghFinal => checkGhFinal s
  | .ctLen => checkCtLen s
  | .ctFeed n => checkCtFeed n s

/-- The "effect at completion" of each command's rule (R191). -/
def effectOf (i : Instr) (a b : Block) (s : State) : State :=
  match i with
  | .nop => effectNop a b s
  | .gfMul => effectGfMul a b s
  | .gfAdd => effectGfAdd a b s
  | .zero => effectZero a b s
  | .clrErr => effectClrErr a b s
  | .ghSeth => effectGhSeth a b s
  | .ghInit => effectGhInit a b s
  | .ghAad n => effectGhAad n a b s
  | .ghCt n => effectGhCt n a b s
  | .ghFinal => effectGhFinal a b s
  | .ctClear => effectCtClear a b s
  | .ctLen => effectCtLen a b s
  | .ctFeed n => effectCtFeed n a b s

/-- What holds in every state a run from reset reaches. -/
structure State.Inv (s : State) : Prop where
  /-- `PHASE != IDLE` implies `HVALID = 1` (R28). -/
  keyed : s.phase ≠ .idle → s.hvalid = true
  /-- No subkey is held before one is loaded (R27, R28, R42). -/
  unkeyed : s.hvalid = false → s.h = 0
  /-- IDLE is "not initialised since reset or ZERO" (R29): the accumulator and counters are 0. -/
  idleClear : s.phase = .idle → s.y = 0 ∧ s.lena = 0 ∧ s.lenc = 0
  /-- `ARMED = 0` implies `DIFF = 0, LENMIS = 0, REM = 0` (R153). -/
  unarmed : s.armed = false → s.diff = false ∧ s.lenmis = false ∧ s.rem = 0
  /-- LENA and LENC count bits of whole bytes (R122). -/
  wholeBytes : s.lena.toNat % 8 = 0 ∧ s.lenc.toNat % 8 = 0
  /-- AAD: only whole associated-data blocks, or none, and no ciphertext (R29). -/
  aadWhole : s.phase = .aad → s.lena.toNat % 128 = 0 ∧ s.lenc = 0
  /-- AADP: the last associated-data block was partial, and no ciphertext (R29). -/
  aadPartial : s.phase = .aadp → s.lena.toNat % 128 ≠ 0 ∧ s.lenc = 0
  /-- CT: at least one ciphertext block, every one whole (R29). -/
  ctWhole : s.phase = .ct → s.lenc.toNat % 128 = 0 ∧ s.lenc ≠ 0
  /-- CTP: the last ciphertext block was partial (R29). -/
  ctPartial : s.phase = .ctp → s.lenc.toNat % 128 ≠ 0
  /-- "A check at issue is a check at completion" (R190): the command in flight passes its own checks. -/
  slotChecked : ∀ f, s.inflight = some f → checkOf f.instr s = none

end Sys2Proof.Machine
end

