-- ==== Sys2Proof/Safety/Reference.lean ====
section
/-! DEFINITION. What the spec says the block computes, written from the spec's definitions apart from the machine:
field elements as polynomials (40_gf128.md R100, R101), GHASH of byte strings (41_ghash.md R120), equality of byte
sequences (42_ctcompare.md R150), the issue function by opcode numbers (60_exceptions.md R190), and the access
sequences of R129 and R156. -/

namespace Sys2Proof.Reference

open Sys2Proof.Machine
open Polynomial

/-- `P(x) = x^128 + x^7 + x^2 + x + 1` (R101). -/
noncomputable def fieldPoly : (ZMod 2)[X] := X ^ 128 + X ^ 7 + X ^ 2 + X + 1

/-- `elem(V) = sum over i = 0..127 of V[127-i] * x^i` (R100). -/
noncomputable def elem (v : Block) : (ZMod 2)[X] :=
  ∑ i ∈ Finset.range 128, if v.getLsbD (127 - i) then X ^ i else 0

/-- Byte j of a block: `B_j = V[127-8j : 120-8j]` (R10). -/
def blockByte (v : Block) (j : Nat) : Byte := v.extractLsb' (120 - 8 * j) 8

/-- The block whose first bytes are `bs` and whose other bytes are 0 (R10, R120). -/
def blockValue (bs : List Byte) : Block :=
  (List.range 16).foldl (fun v j => (v <<< 8) ||| (bs.getD j 0).zeroExtend 128) 0

/-- The number of 16-byte chunks of `d`: `ceil(len(d)/16)` (R120). -/
def chunkCount (d : List Byte) : Nat := (d.length + 15) / 16

/-- Bytes 16j .. 16j+n-1 of `d`, with `n = min(16, len(d) - 16*j)` (R120). -/
def chunk (d : List Byte) (j : Nat) : List Byte := (d.drop (16 * j)).take 16

/-- The inner loop of R120 over one byte string. -/
def ghashSection (h y : Block) (d : List Byte) : Block :=
  (List.range (chunkCount d)).foldl (fun y j => gfmul (y ^^^ blockValue (chunk d j)) h) y

/-- `ghash(H, A, C)` of R120. -/
def ghash (h : Block) (a c : List Byte) : Block :=
  gfmul (ghashSection h (ghashSection h 0 a) c
    ^^^ (BitVec.ofNat 64 (8 * a.length) ++ BitVec.ofNat 64 (8 * c.length))) h

/-- `ct_equal(a, b)` of R150. -/
def ctEqual (a b : List Byte) : Bool :=
  a.length == b.length && (List.range a.length).all (fun i => a.getD i 0 == b.getD i 0)

/-- `Check(opc, n)` of R190, by opcode numbers. -/
def checkReference (opc : BitVec 8) (n : Nat) (s : State) : Option ErrCode :=
  if opc = 0x10#8 then (if s.phase ∉ [.idle, .done] then some .order else none)
  else if opc = 0x11#8 then (if s.hvalid = false then some .noKey else none)
  else if opc = 0x12#8 then
    (if n < 1 ∨ 16 < n then some .badCount
     else if s.phase ≠ .aad then some .order
     else if s.lena.toNat + 8 * n > 2 ^ 64 - 1 then some .lenOvf else none)
  else if opc = 0x13#8 then
    (if n < 1 ∨ 16 < n then some .badCount
     else if s.phase ∉ [.aad, .aadp, .ct] then some .order
     else if s.lenc.toNat + 8 * n > 2 ^ 64 - 1 then some .lenOvf else none)
  else if opc = 0x14#8 then (if s.phase ∉ [.aad, .aadp, .ct, .ctp] then some .order else none)
  else if opc = 0x21#8 then (if s.armed = true then some .order else none)
  else if opc = 0x22#8 then
    (if n < 1 ∨ 16 < n then some .badCount
     else if s.armed = false then some .order
     else if n > s.rem.toNat then some .lenOvf else none)
  else none

/-- `raise Error(code)` of R188. -/
def raiseReference (c : ErrCode) (s : State) : State :=
  { s with errcode := if s.errcode = .noError then c else s.errcode }

/-- `IssueCommand(word)` of R190, line by line. -/
def issueReference (w : Word) (s : State) : State :=
  if s.inflight ≠ none then raiseReference .busy s
  else
    match decode w with
    | .error _ => raiseReference .illegal s
    | .ok i =>
      if s.errcode ≠ .noError ∧ i.opcode ∉ [0x00#8, 0x0F#8, 0x0E#8] then s
      else
        match checkReference i.opcode i.count.toNat s with
        | some e => raiseReference e s
        | none =>
          { s with
            errcode := if i.opcode ∈ [0x0F#8, 0x0E#8] then .noError else s.errcode
            inflight := some ⟨i, s.opa, s.opb⟩ }

/-- Four word writes of a 128-bit value at `base` (R65, R88). -/
def writeBlock (base : Offset) (v : Block) : List Event :=
  [.access (.write base (v.extractLsb' 96 32)), .access (.write (base + 4) (v.extractLsb' 64 32)),
   .access (.write (base + 8) (v.extractLsb' 32 32)), .access (.write (base + 12) (v.extractLsb' 0 32))]

/-- Two word writes of a 64-bit value into bits 63:0 of the register at `base` (R88). -/
def writeLength (base : Offset) (v : Length) : List Event :=
  [.access (.write (base + 8) (v.extractLsb' 32 32)), .access (.write (base + 12) (v.extractLsb' 0 32))]

/-- One command written to CMD and then completed, so that `BUSY = 0` again (R214). -/
def perform (i : Instr) : List Event := [.access (.write cmdOffset (encode i)), .complete]

/-- The chunks of `d` in order, each loaded into OPA and absorbed by the command `cmd` (R129). -/
def absorbAll (cmd : Count → Instr) (d : List Byte) : List Event :=
  (List.range (chunkCount d)).flatMap fun j =>
    writeBlock 0x10 (blockValue (chunk d j)) ++ perform (cmd (BitVec.ofNat 5 (chunk d j).length))

/-- The command sequence of R129. -/
def ghashSequence (a c : List Byte) : List Event :=
  perform .ghInit ++ (absorbAll .ghAad a ++ (absorbAll .ghCt c ++ perform .ghFinal))

/-- The chunks of R156 step 3: bytes of `a` in OPA, bytes of `b` at the same positions in OPB. -/
def feedAll (a b : List Byte) : List Event :=
  (List.range (chunkCount a)).flatMap fun j =>
    writeBlock 0x10 (blockValue (chunk a j)) ++
      (writeBlock 0x20 (blockValue (chunk b j)) ++ perform (.ctFeed (BitVec.ofNat 5 (chunk a j).length)))

/-- The command sequence of R156. `filler` gives the bytes read where `b` is shorter ("any value"). -/
def compareSequence (a b filler : List Byte) : List Event :=
  perform .ctClear ++
    (writeLength 0x10 (BitVec.ofNat 64 a.length) ++
      (writeLength 0x20 (BitVec.ofNat 64 b.length) ++ (perform .ctLen ++ feedAll a (b ++ filler))))

/-- `s` with the GHASH registers of `u` (the list of R157). -/
def withGhash (u s : State) : State :=
  { s with h := u.h, hvalid := u.hvalid, y := u.y, lena := u.lena, lenc := u.lenc, phase := u.phase }

/-- `s` with the comparator registers of `u` (the list of R157). -/
def withComparator (u s : State) : State :=
  { s with diff := u.diff, lenmis := u.lenmis, armed := u.armed, rem := u.rem }

/-- The next event is a write of `w` to CMD. -/
def commandNext (s : State) (w : Word) : Prop :=
  ∃ off rest, s.agenda = .access (.write off w) :: rest ∧ off &&& 0xFC#8 = 0x04#8

/-- The state after one step (every step answers a next state). -/
def stepped (s : State) : State :=
  match step s with
  | .next t => t
  | .fault _ => s
  | .refused _ => s

/-- In the next `k` steps there is no reset and no write of a legal CLR_ERR or ZERO to CMD. -/
def noClear : Nat → State → Prop
  | 0, _ => True
  | k + 1, s =>
    (∀ w, commandNext s w → decode w ≠ .ok .clrErr ∧ decode w ≠ .ok .zero) ∧
    (∀ d rest, s.agenda ≠ .reset d :: rest) ∧ noClear k (stepped s)

/-- In the next `k` steps every CMD write is accepted: the slot is free before it and taken after it (R8, R15). -/
def allAccepted : Nat → State → Prop
  | 0, _ => True
  | k + 1, s =>
    (∀ w, commandNext s w → s.inflight = none ∧ (stepped s).inflight ≠ none) ∧ allAccepted k (stepped s)

end Sys2Proof.Reference
end

