-- ==== Sys2Proof/Certificates/Slice0/Obligations.lean ====
section
/-! DEFINITION. The statements for the provers. Each docstring names the rule of spec/ it formalises. A statement about
one command's issue takes the host's turn (`s.turn = .host`), one about its completion the engine's; the step sets the
turn (`StepRunsCommand`, `StepCompletes`). -/

open Sys2Proof Sys2Proof.Machine Sys2Proof.Reference

/-! ### The command word -/

/-- R81, R86: no bit of an encoding is dropped, for every command and every count. -/
def Obligations.DecodeOfEncode : Prop := ∀ i : Instr, decode (encode i) = .ok i

/-- R85, R86: a command has one legal word. -/
def Obligations.EncodeOfDecode : Prop := ∀ (w : Word) (i : Instr), decode w = .ok i → encode i = w

/-- R84 and R182: which words are illegal, and what a write of one to CMD does. -/
def Obligations.IllegalWords : Prop :=
  (∀ w : Word, (∃ e, decode w = .error e) ↔
    w.extractLsb' 0 8 ∉ [0x00#8, 0x01#8, 0x02#8, 0x0E#8, 0x0F#8, 0x10#8, 0x11#8, 0x12#8, 0x13#8, 0x14#8, 0x20#8,
      0x21#8, 0x22#8] ∨
    w.extractLsb' 13 19 ≠ 0 ∨
    (w.extractLsb' 8 5 ≠ 0 ∧ w.extractLsb' 0 8 ∈ [0x00#8, 0x01#8, 0x02#8, 0x0E#8, 0x0F#8, 0x10#8, 0x11#8, 0x14#8,
      0x20#8, 0x21#8])) ∧
  ∀ (s : State) (off : Offset) (w : Word) (e : DecodeError) (rest : List Event),
    s.agenda = .access (.write off w) :: rest → off &&& 0xFC#8 = 0x04#8 → decode w = .error e →
    step s = .next { s with
      agenda := rest
      turn := .host
      errcode :=
        if s.errcode ≠ .noError then s.errcode else if s.inflight = none then .illegal else .busy }

/-- R83, the Selection paragraph: a word selects a mnemonic by mask and match. -/
def Obligations.SelectionByMask : Prop :=
  (∀ (w : Word) (i : Instr), decode w = .ok i → w &&& i.mask = i.opcode.setWidth 32) ∧
  ∀ (w : Word) (i : Instr), w &&& i.mask = i.opcode.setWidth 32 →
    ∃ j, decode w = .ok j ∧ j.opcode = i.opcode ∧ j.count = w.extractLsb' 8 5

/-- R83, R84: words written out from the opcode map, one at least of each family, and three illegal ones. -/
def Obligations.DecodesWordsOfTheMap : Prop :=
  decode 0x00000001#32 = .ok .gfMul ∧ decode 0x0000000E#32 = .ok .zero ∧ decode 0x00000011#32 = .ok .ghInit ∧
  decode 0x00001012#32 = .ok (.ghAad 16) ∧ decode 0x00000C13#32 = .ok (.ghCt 12) ∧
  decode 0x00000021#32 = .ok .ctLen ∧ decode 0x00001022#32 = .ok (.ctFeed 16) ∧
  decode 0x00001F12#32 = .ok (.ghAad 31) ∧
  decode 0x00000015#32 = .error .unassignedOpcode ∧ decode 0x80000001#32 = .error .reservedBits ∧
  decode 0x0000010F#32 = .error .countNotAllowed

/-! ### The register window -/

/-- R61, R62: what a read of each offset returns. -/
def Obligations.ReadMap : Prop :=
  ∀ s : State,
    hostRead 0x00#8 s = 0x47480001#32 ∧ hostRead 0x04#8 s = 0 ∧ hostRead 0x08#8 s = s.status ∧
    (∀ k : Fin 4, hostRead (0x10#8 + BitVec.ofNat 8 (4 * k.val)) s = s.opa.extractLsb' (96 - 32 * k.val) 32 ∧
      hostRead (0x20#8 + BitVec.ofNat 8 (4 * k.val)) s = s.opb.extractLsb' (96 - 32 * k.val) 32 ∧
      hostRead (0x30#8 + BitVec.ofNat 8 (4 * k.val)) s = s.res.extractLsb' (96 - 32 * k.val) 32 ∧
      hostRead (0x40#8 + BitVec.ofNat 8 (4 * k.val)) s = s.y.extractLsb' (96 - 32 * k.val) 32) ∧
    hostRead 0x50#8 s = s.lena.extractLsb' 32 32 ∧ hostRead 0x54#8 s = s.lena.extractLsb' 0 32 ∧
    hostRead 0x58#8 s = s.lenc.extractLsb' 32 32 ∧ hostRead 0x5C#8 s = s.lenc.extractLsb' 0 32

/-- R63: the block decodes only `off[7:2]`, for reads and for writes. -/
def Obligations.LowOffsetBitsIgnored : Prop :=
  ∀ off off' : Offset, off &&& 0xFC#8 = off' &&& 0xFC#8 →
    (∀ s : State, hostRead off s = hostRead off' s) ∧
    ∀ (s : State) (v : Word) (rest : List Event),
      step { s with agenda := .access (.write off v) :: rest } =
        step { s with agenda := .access (.write off' v) :: rest }

/-- R64: writes to read-only and reserved offsets are ignored, reads of CMD and reserved offsets return 0, and neither
raises an error. -/
def Obligations.IgnoredOffsets : Prop :=
  (∀ (s : State) (off : Offset) (v : Word) (rest : List Event),
    s.agenda = .access (.write off v) :: rest →
    off &&& 0xFC#8 ≠ 0x04#8 → ¬(0x10 ≤ off.toNat ∧ off.toNat ≤ 0x2F) →
    step s = .next { s with agenda := rest }) ∧
  ∀ (s : State) (off : Offset) (rest : List Event),
    s.agenda = .access (.read off) :: rest →
    off &&& 0xFC#8 = 0x04#8 ∨ off &&& 0xFC#8 = 0x0C#8 ∨ 0x60 ≤ off.toNat →
    step s = .next { s with agenda := rest, rdata := 0 }

/-- R62, R65, R21, R22: a write to word k of OPA (OPB) gives that word the value and changes nothing else: not the
other words, not any other state. -/
def Obligations.OperandWriteChangesOneWord : Prop :=
  ∀ (s : State) (k : Fin 4) (v : Word) (rest : List Event),
    (s.agenda = .access (.write (0x10#8 + BitVec.ofNat 8 (4 * k.val)) v) :: rest →
      ∃ x : Block, step s = .next { s with agenda := rest, opa := x } ∧
        ∀ j : Fin 4, x.extractLsb' (96 - 32 * j.val) 32 =
          if j = k then v else s.opa.extractLsb' (96 - 32 * j.val) 32) ∧
    (s.agenda = .access (.write (0x20#8 + BitVec.ofNat 8 (4 * k.val)) v) :: rest →
      ∃ x : Block, step s = .next { s with agenda := rest, opb := x } ∧
        ∀ j : Fin 4, x.extractLsb' (96 - 32 * j.val) 32 =
          if j = k then v else s.opb.extractLsb' (96 - 32 * j.val) 32)

/-- R62, R68: a read changes no state of the block. The value it returns is on the model's read data port
(notes/assumptions/3.md). -/
def Obligations.ReadHasNoSideEffect : Prop :=
  ∀ (s : State) (off : Offset) (rest : List Event), s.agenda = .access (.read off) :: rest →
    ∃ t, step s = .next t ∧ t.rdata = hostRead off s ∧ t.sameBlock s ∧ t.agenda = rest ∧
      ∀ off', hostRead off' t = hostRead off' s

/-- R36: the fields of STATUS, its value at reset, and that it is read-only and has no side effect. The codes R181 and
R29 call never produced (I11, I12) are never read. -/
def Obligations.StatusRegister : Prop :=
  (∀ s : State, hostRead 0x08#8 s = s.status ∧
    s.status.getLsbD 0 = s.inflight.isSome ∧ s.status.getLsbD 1 = (s.errcode != .noError) ∧
    s.status.extractLsb' 2 2 = 0 ∧ s.status.extractLsb' 4 3 = s.errcode.code ∧ s.status.getLsbD 7 = false ∧
    s.status.getLsbD 8 = s.hvalid ∧ s.status.extractLsb' 9 3 = s.phase.code ∧
    s.status.getLsbD 12 = (s.armed && s.rem == 0 && !s.lenmis && !s.diff) ∧ s.status.extractLsb' 13 19 = 0 ∧
    (s.status.extractLsb' 4 3).toNat ≤ 6 ∧ (s.status.extractLsb' 9 3).toNat ≤ 5) ∧
  State.reset.status = 0 ∧
  (∀ (s : State) (v : Word) (rest : List Event), s.agenda = .access (.write 0x08#8 v) :: rest →
    step s = .next { s with agenda := rest }) ∧
  ∀ (s : State) (rest : List Event), s.agenda = .access (.read 0x08#8) :: rest →
    step s = .next { s with agenda := rest, rdata := s.status }

/-- R27, R32, R195: what a read can never show. No offset maps H, and CMP_EQ is the only comparator value a read can
show. -/
def Obligations.SecretsUnreadable : Prop :=
  (∀ (s : State) (x : Block) (off : Offset), hostRead off { s with h := x } = hostRead off s) ∧
  ∀ (s u : State) (off : Offset), (withComparator u s).cmpEq = s.cmpEq →
    hostRead off (withComparator u s) = hostRead off s

/-! ### What may change a register: over every step -/

/-- R27, R28: only the completion of GH_SETH, that of ZERO, and reset change H or HVALID. -/
def Obligations.SubkeyWriters : Prop :=
  ∀ s t : State, step s = .next t →
    (t.h = s.h ∧ t.hvalid = s.hvalid) ∨
    (∃ f, s.inflight = some f ∧ t.inflight = none ∧
      ((f.instr = .ghSeth ∧ t.h = f.a ∧ t.hvalid = true) ∨ (f.instr = .zero ∧ t.h = 0 ∧ t.hvalid = false))) ∨
    (∃ d rest, s.agenda = .reset d :: rest ∧ t.h = 0 ∧ t.hvalid = false)

/-- R21, R22: only host writes to their words, ZERO and reset change OPA or OPB. -/
def Obligations.OperandWriters : Prop :=
  ∀ s t : State, step s = .next t →
    (t.opa = s.opa ∧ t.opb = s.opb) ∨
    (∃ off v rest, s.agenda = .access (.write off v) :: rest ∧ 0x10 ≤ off.toNat ∧ off.toNat < 0x20 ∧
      t.opb = s.opb) ∨
    (∃ off v rest, s.agenda = .access (.write off v) :: rest ∧ 0x20 ≤ off.toNat ∧ off.toNat < 0x30 ∧
      t.opa = s.opa) ∨
    (∃ f, s.inflight = some f ∧ f.instr = .zero ∧ t.inflight = none ∧ t.opa = 0 ∧ t.opb = 0) ∨
    (∃ d rest, s.agenda = .reset d :: rest ∧ t.opa = 0 ∧ t.opb = 0)

/-- R23 to R26, R29: which completions may change RES, Y, LENA, LENC and PHASE. -/
def Obligations.ResultWriters : Prop :=
  ∀ s t : State, step s = .next t → (∀ d rest, s.agenda ≠ .reset d :: rest) →
    (t.res ≠ s.res → ∃ f, s.inflight = some f ∧ t.inflight = none ∧ f.instr ∈ [.gfMul, .gfAdd, .zero]) ∧
    (t.y ≠ s.y ∨ t.phase ≠ s.phase → ∃ f, s.inflight = some f ∧ t.inflight = none ∧
      (f.instr ∈ [.ghInit, .ghFinal, .zero] ∨ ∃ n, f.instr = .ghAad n ∨ f.instr = .ghCt n)) ∧
    (t.lena ≠ s.lena → ∃ f, s.inflight = some f ∧ t.inflight = none ∧
      (f.instr ∈ [.ghInit, .zero] ∨ ∃ n, f.instr = .ghAad n)) ∧
    (t.lenc ≠ s.lenc → ∃ f, s.inflight = some f ∧ t.inflight = none ∧
      (f.instr ∈ [.ghInit, .zero] ∨ ∃ n, f.instr = .ghCt n))

/-- R30: once DIFF is 1 it stays 1 until CT_CLEAR, ZERO or reset. -/
def Obligations.DiffIsSticky : Prop :=
  ∀ s t : State, step s = .next t → s.diff = true →
    t.diff = true ∨
    (∃ f, s.inflight = some f ∧ t.inflight = none ∧ (f.instr = .ctClear ∨ f.instr = .zero)) ∨
    ∃ d rest, s.agenda = .reset d :: rest

/-- R33: a recorded error is kept until CLR_ERR or ZERO is accepted, or reset. -/
def Obligations.ErrorIsSticky : Prop :=
  ∀ s t : State, step s = .next t → s.errcode ≠ .noError →
    t.errcode = s.errcode ∨
    (t.errcode = .noError ∧ s.inflight = none ∧ ∃ f, t.inflight = some f ∧ (f.instr = .clrErr ∨ f.instr = .zero)) ∨
    ∃ d rest, s.agenda = .reset d :: rest ∧ t.errcode = .noError

/-- R215: while a command stays in flight, the results and the STATUS fields it may write hold. -/
def Obligations.ResultsHeldWhileBusy : Prop :=
  ∀ (s t : State) (f : Inflight), step s = .next t → s.inflight = some f → t.inflight ≠ none →
    t.inflight = some f ∧ t.res = s.res ∧ t.y = s.y ∧ t.lena = s.lena ∧ t.lenc = s.lenc ∧ t.hvalid = s.hvalid ∧
    t.phase = s.phase ∧ t.cmpEq = s.cmpEq ∧ t.h = s.h

/-- R21, R216: rewriting OPA or OPB while a command other than ZERO (which clears them) is in flight does not affect
that command: the write and the completion commute. -/
def Obligations.LatchedOperandsShielded : Prop :=
  ∀ (s : State) (f : Inflight) (off : Offset) (v : Word) (rest : List Event),
    s.inflight = some f → f.instr ≠ .zero → 0x10 ≤ off.toNat → off.toNat < 0x30 →
    Host.Core.run Sys2Proof.core 2 { s with agenda := .access (.write off v) :: .complete :: rest } =
      Host.Core.run Sys2Proof.core 2 { s with agenda := .complete :: .access (.write off v) :: rest }

/-! ### Reset -/

/-- R211, R42: the state after reset. -/
def Obligations.ResetValues : Prop :=
  State.reset.opa = 0 ∧ State.reset.opb = 0 ∧ State.reset.res = 0 ∧ State.reset.y = 0 ∧ State.reset.lena = 0 ∧
  State.reset.lenc = 0 ∧ State.reset.h = 0 ∧ State.reset.hvalid = false ∧ State.reset.phase = .idle ∧
  State.reset.diff = false ∧ State.reset.lenmis = false ∧ State.reset.armed = false ∧ State.reset.rem = 0 ∧
  State.reset.errcode = .noError ∧ State.reset.inflight = none ∧ State.reset.status = 0 ∧
  ∀ off : Offset, hostRead off State.reset = if off &&& 0xFC#8 = 0 then 0x47480001#32 else 0

/-- R210: a cycle of reset from any state, with the host access of the same cycle. -/
def Obligations.ResetFromAnyState : Prop :=
  ∀ (s : State) (d : Option Access) (rest : List Event), s.agenda = .reset d :: rest →
    ∃ t, step s = .next t ∧ t.ResetState ∧ t.agenda = rest ∧
      ∀ off, d = some (.read off) → t.rdata = if off &&& 0xFC#8 = 0 then 0x47480001#32 else 0

/-! ### Steps -/

/-- R37, R70: a write to CMD of a word that decodes to `i` is `exec i`, with the event taken from the agenda and the
host's turn set. -/
def Obligations.StepRunsCommand : Prop :=
  ∀ (s : State) (off : Offset) (w : Word) (i : Instr) (rest : List Event),
    s.agenda = .access (.write off w) :: rest → off &&& 0xFC#8 = 0x04#8 → decode w = .ok i →
    step s = exec i (actAs .host (schedule rest s))

/-- R191: `Complete` is `exec` of the command in flight in the engine's turn. With nothing scheduled the model takes
it (notes/assumptions/5.md). -/
def Obligations.StepCompletes : Prop :=
  ∀ (s : State) (f : Inflight) (rest : List Event), s.inflight = some f →
    s.agenda = .complete :: rest ∨ (s.agenda = [] ∧ rest = []) →
    step s = exec f.instr (actAs .engine (schedule rest s))

/-- R191, R212: with no command in flight `Complete` is not enabled, and an idle block waits. -/
def Obligations.IdleBlockWaits : Prop :=
  ∀ (s : State) (rest : List Event), s.inflight = none →
    s.agenda = .complete :: rest ∨ (s.agenda = [] ∧ rest = []) → step s = .next { s with agenda := rest }

/-- R8: every step has a defined outcome; the block never faults, hangs or refuses. -/
def Obligations.StepNeverStops : Prop :=
  (∀ s : State, ∃ t, step s = .next t) ∧ ∀ (i : Instr) (s : State), ∃ t, exec i s = .next t

/-! ### Issuing a command -/

/-- R190: `IssueCommand`, against its line-by-line transcription, and "a check at issue is a check at completion". -/
def Obligations.IssueFunction : Prop :=
  (∀ (s : State) (off : Offset) (w : Word) (rest : List Event),
    s.agenda = .access (.write off w) :: rest → off &&& 0xFC#8 = 0x04#8 →
    step s = .next (issueReference w (actAs .host (schedule rest s)))) ∧
  ∀ (s t : State) (f : Inflight), step s = .next t → s.inflight = some f → t.inflight = some f →
    checkReference f.instr.opcode f.instr.count.toNat t = checkReference f.instr.opcode f.instr.count.toNat s

/-- R187: any write to CMD while a command is in flight is dropped with BUSY, and the command in flight completes as
it does without that write, but for the error kept. -/
def Obligations.BusyRejection : Prop :=
  ∀ (s : State) (f : Inflight) (off : Offset) (w : Word) (rest : List Event),
    s.inflight = some f → off &&& 0xFC#8 = 0x04#8 →
    (s.agenda = .access (.write off w) :: rest →
      step s = .next { s with
        agenda := rest
        turn := .host
        errcode := if s.errcode = .noError then .busy else s.errcode }) ∧
    ∃ t, step { s with agenda := .complete :: rest } = .next t ∧ t.inflight = none ∧
      Host.Core.run Sys2Proof.core 2 { s with agenda := .access (.write off w) :: .complete :: rest } =
        .next { t with errcode := if s.errcode = .noError then .busy else s.errcode }

/-- R189: while ERR = 1 every command but NOP, CLR_ERR and ZERO is dropped with no effect and no new code. -/
def Obligations.BlockedWhileError : Prop :=
  ∀ (s : State) (i : Instr), s.turn = .host → s.inflight = none → s.errcode ≠ .noError →
    (i ∉ [Instr.nop, .clrErr, .zero] → exec i s = .next s) ∧
    (i ∈ [Instr.nop, .clrErr, .zero] → ∃ t, exec i s = .next t ∧ t.inflight = some ⟨i, s.opa, s.opb⟩)

/-- R188, R192: a rejected command changes nothing but ERRCODE, and ERRCODE only where it was 0. -/
def Obligations.ErrorsArePrecise : Prop :=
  ∀ (s t : State) (i : Instr), s.turn = .host → exec i s = .next t → t.inflight = s.inflight →
    t = { s with errcode := t.errcode } ∧ (s.errcode ≠ .noError → t.errcode = s.errcode)

/-- R183: a count outside 1..16, whatever the other state. -/
def Obligations.BadCountRejection : Prop :=
  ∀ (s : State) (n : Count), s.turn = .host → s.inflight = none → s.errcode = .noError → n.toNat = 0 ∨ 17 ≤ n.toNat →
    exec (.ghAad n) s = .next { s with errcode := .badCount } ∧
    exec (.ghCt n) s = .next { s with errcode := .badCount } ∧
    exec (.ctFeed n) s = .next { s with errcode := .badCount }

/-- R184: the six causes of ORDER. -/
def Obligations.OrderRejection : Prop :=
  ∀ (s : State) (n : Count), s.turn = .host → s.inflight = none → s.errcode = .noError →
    1 ≤ n.toNat → n.toNat ≤ 16 →
    (s.phase ∉ [Phase.idle, .done] → exec .ghSeth s = .next { s with errcode := .order }) ∧
    (s.phase ≠ .aad → exec (.ghAad n) s = .next { s with errcode := .order }) ∧
    (s.phase ∉ [Phase.aad, .aadp, .ct] → exec (.ghCt n) s = .next { s with errcode := .order }) ∧
    (s.phase ∈ [Phase.idle, .done] → exec .ghFinal s = .next { s with errcode := .order }) ∧
    (s.armed = true → exec .ctLen s = .next { s with errcode := .order }) ∧
    (s.armed = false → exec (.ctFeed n) s = .next { s with errcode := .order })

/-- R185: GH_INIT with no subkey loaded. -/
def Obligations.NoKeyRejection : Prop :=
  ∀ s : State, s.turn = .host → s.inflight = none → s.errcode = .noError → s.hvalid = false →
    exec .ghInit s = .next { s with errcode := .noKey }

/-- R186: a length that would pass its bound. -/
def Obligations.LengthOverflowRejection : Prop :=
  ∀ (s : State) (n : Count), s.turn = .host → s.inflight = none → s.errcode = .noError →
    1 ≤ n.toNat → n.toNat ≤ 16 →
    (s.phase = .aad → 2 ^ 64 - 1 < s.lena.toNat + 8 * n.toNat →
      exec (.ghAad n) s = .next { s with errcode := .lenOvf }) ∧
    (s.phase ∈ [Phase.aad, .aadp, .ct] → 2 ^ 64 - 1 < s.lenc.toNat + 8 * n.toNat →
      exec (.ghCt n) s = .next { s with errcode := .lenOvf }) ∧
    (s.armed = true → s.rem.toNat < n.toNat → exec (.ctFeed n) s = .next { s with errcode := .lenOvf })

/-- R190, R170 to R172, R106, R107, R152: acceptance of the commands that have no check of their own. -/
def Obligations.UncheckedCommandsAccepted : Prop :=
  ∀ s : State, s.turn = .host → s.inflight = none →
    (s.errcode = .noError → ∀ i ∈ [Instr.gfMul, .gfAdd, .ctClear],
      exec i s = .next { s with inflight := some ⟨i, s.opa, s.opb⟩ }) ∧
    exec .nop s = .next { s with inflight := some ⟨.nop, s.opa, s.opb⟩ } ∧
    exec .zero s = .next { s with errcode := .noError, inflight := some ⟨.zero, s.opa, s.opb⟩ } ∧
    exec .clrErr s = .next { s with errcode := .noError, inflight := some ⟨.clrErr, s.opa, s.opb⟩ }

/-- R190, R123 to R128: when each GHASH command is accepted. -/
def Obligations.GhashCommandsAccepted : Prop :=
  ∀ (s : State) (n : Count), s.turn = .host → s.inflight = none → s.errcode = .noError →
    (s.phase = .idle ∨ s.phase = .done →
      exec .ghSeth s = .next { s with inflight := some ⟨.ghSeth, s.opa, s.opb⟩ }) ∧
    (s.hvalid = true → exec .ghInit s = .next { s with inflight := some ⟨.ghInit, s.opa, s.opb⟩ }) ∧
    (1 ≤ n.toNat → n.toNat ≤ 16 → s.phase = .aad → s.lena.toNat + 8 * n.toNat ≤ 2 ^ 64 - 1 →
      exec (.ghAad n) s = .next { s with inflight := some ⟨.ghAad n, s.opa, s.opb⟩ }) ∧
    (1 ≤ n.toNat → n.toNat ≤ 16 → s.phase = .aad ∨ s.phase = .aadp ∨ s.phase = .ct →
      s.lenc.toNat + 8 * n.toNat ≤ 2 ^ 64 - 1 →
      exec (.ghCt n) s = .next { s with inflight := some ⟨.ghCt n, s.opa, s.opb⟩ }) ∧
    (s.phase ≠ .idle → s.phase ≠ .done →
      exec .ghFinal s = .next { s with inflight := some ⟨.ghFinal, s.opa, s.opb⟩ })

/-- R190, R153, R154: when CT_LEN and CT_FEED are accepted. -/
def Obligations.ComparatorCommandsAccepted : Prop :=
  ∀ (s : State) (n : Count), s.turn = .host → s.inflight = none → s.errcode = .noError →
    (s.armed = false → exec .ctLen s = .next { s with inflight := some ⟨.ctLen, s.opa, s.opb⟩ }) ∧
    (1 ≤ n.toNat → n.toNat ≤ 16 → s.armed = true → n.toNat ≤ s.rem.toNat →
      exec (.ctFeed n) s = .next { s with inflight := some ⟨.ctFeed n, s.opa, s.opb⟩ })

/-! ### Completing a command: its effect, and that nothing else changes -/

/-- R106, with R103's product: GF_MUL. -/
def Obligations.GfMulCompletes : Prop :=
  ∀ (s : State) (a b : Block), s.turn = .engine → s.inflight = some ⟨.gfMul, a, b⟩ →
    ∃ v, exec .gfMul s = .next { s with res := v, inflight := none } ∧
      elem v = (elem a * elem b) %ₘ fieldPoly

/-- R107: GF_ADD. -/
def Obligations.GfAddCompletes : Prop :=
  ∀ (s : State) (a b : Block), s.turn = .engine → s.inflight = some ⟨.gfAdd, a, b⟩ →
    exec .gfAdd s = .next { s with res := a ^^^ b, inflight := none }

/-- R170, R172: NOP and CLR_ERR have no effect at completion. -/
def Obligations.NopAndClrErrComplete : Prop :=
  ∀ (s : State) (a b : Block), s.turn = .engine →
    (s.inflight = some ⟨.nop, a, b⟩ → exec .nop s = .next { s with inflight := none }) ∧
    (s.inflight = some ⟨.clrErr, a, b⟩ → exec .clrErr s = .next { s with inflight := none })

/-- R171, R42: ZERO clears everything but an error recorded since its issue. -/
def Obligations.ZeroCompletes : Prop :=
  ∀ (s : State) (a b : Block), s.turn = .engine → s.inflight = some ⟨.zero, a, b⟩ →
    ∃ t, exec .zero s = .next t ∧ t.sameBlock { State.reset with errcode := s.errcode } ∧
      t.agenda = s.agenda ∧ t.rdata = s.rdata

/-- R124, R125: GH_SETH and GH_INIT. -/
def Obligations.GhSethAndGhInitComplete : Prop :=
  ∀ (s : State) (a b : Block), s.turn = .engine →
    (s.inflight = some ⟨.ghSeth, a, b⟩ →
      exec .ghSeth s = .next { s with h := a, hvalid := true, inflight := none }) ∧
    (s.inflight = some ⟨.ghInit, a, b⟩ →
      exec .ghInit s = .next { s with y := 0, lena := 0, lenc := 0, phase := .aad, inflight := none })

/-- R126, R121: GH_AAD. The block absorbed keeps the first n bytes of `a` and is 0 after them. -/
def Obligations.GhAadCompletes : Prop :=
  ∀ (s : State) (n : Count) (a b : Block), s.turn = .engine → s.inflight = some ⟨.ghAad n, a, b⟩ →
    1 ≤ n.toNat → n.toNat ≤ 16 → s.lena.toNat + 8 * n.toNat ≤ 2 ^ 64 - 1 →
    ∃ (block : Block) (len : Length),
      (∀ j < 16, blockByte block j = if j < n.toNat then blockByte a j else 0) ∧
      len.toNat = s.lena.toNat + 8 * n.toNat ∧
      exec (.ghAad n) s = .next { s with
        y := gfmul (s.y ^^^ block) s.h
        lena := len
        phase := if n.toNat = 16 then .aad else .aadp
        inflight := none }

/-- R127, R121: GH_CT. -/
def Obligations.GhCtCompletes : Prop :=
  ∀ (s : State) (n : Count) (a b : Block), s.turn = .engine → s.inflight = some ⟨.ghCt n, a, b⟩ →
    1 ≤ n.toNat → n.toNat ≤ 16 → s.lenc.toNat + 8 * n.toNat ≤ 2 ^ 64 - 1 →
    ∃ (block : Block) (len : Length),
      (∀ j < 16, blockByte block j = if j < n.toNat then blockByte a j else 0) ∧
      len.toNat = s.lenc.toNat + 8 * n.toNat ∧
      exec (.ghCt n) s = .next { s with
        y := gfmul (s.y ^^^ block) s.h
        lenc := len
        phase := if n.toNat = 16 then .ct else .ctp
        inflight := none }

/-- R128, R122: GH_FINAL, with the length block's two halves. -/
def Obligations.GhFinalCompletes : Prop :=
  ∀ (s : State) (a b : Block), s.turn = .engine → s.inflight = some ⟨.ghFinal, a, b⟩ →
    ∃ block : Block, block.extractLsb' 64 64 = s.lena ∧ block.extractLsb' 0 64 = s.lenc ∧
      exec .ghFinal s = .next { s with y := gfmul (s.y ^^^ block) s.h, phase := .done, inflight := none }

/-- R152, R153: CT_CLEAR and CT_LEN. -/
def Obligations.CtClearAndCtLenComplete : Prop :=
  ∀ (s : State) (a b : Block), s.turn = .engine →
    (s.inflight = some ⟨.ctClear, a, b⟩ →
      exec .ctClear s = .next { s with
        diff := false, lenmis := false, armed := false, rem := 0, inflight := none }) ∧
    (s.inflight = some ⟨.ctLen, a, b⟩ →
      exec .ctLen s = .next { s with
        lenmis := decide (a.extractLsb' 0 64 ≠ b.extractLsb' 0 64)
        armed := true
        rem := a.extractLsb' 0 64
        inflight := none })

/-- R154, R121: CT_FEED. DIFF becomes 1 exactly where one of the first n byte pairs differs. -/
def Obligations.CtFeedCompletes : Prop :=
  ∀ (s : State) (n : Count) (a b : Block), s.turn = .engine → s.inflight = some ⟨.ctFeed n, a, b⟩ →
    1 ≤ n.toNat → n.toNat ≤ 16 → n.toNat ≤ s.rem.toNat →
    ∃ (differ : Bool) (left : Length),
      (differ = true ↔ ∃ j < n.toNat, blockByte a j ≠ blockByte b j) ∧
      left.toNat = s.rem.toNat - n.toNat ∧
      exec (.ctFeed n) s = .next { s with diff := s.diff || differ, rem := left, inflight := none }

/-- R106, R40: GF_MUL and GF_ADD write no flag: at completion every offset but RES reads as before, STATUS but for
BUSY. -/
def Obligations.FieldCommandsWriteNoFlag : Prop :=
  ∀ (s t : State) (a b : Block) (i : Instr), i = .gfMul ∨ i = .gfAdd → s.turn = .engine →
    s.inflight = some ⟨i, a, b⟩ → exec i s = .next t →
    (∀ off : Offset, ¬(0x30 ≤ off.toNat ∧ off.toNat < 0x40) → off &&& 0xFC#8 ≠ 0x08#8 →
      hostRead off t = hostRead off s) ∧
    t.status ||| 1 = s.status ∧ t.status.getLsbD 0 = false

/-- R157: no comparator command reads or writes GHASH state, and no GHASH command reads or writes comparator state:
replacing the other engine's registers commutes with the command, at issue and at completion. -/
def Obligations.EnginesAreIndependent : Prop :=
  (∀ (s t u : State) (i : Instr), (i = .ctClear ∨ i = .ctLen ∨ ∃ n, i = .ctFeed n) → exec i s = .next t →
    exec i (withGhash u s) = .next (withGhash u t)) ∧
  ∀ (s t u : State) (i : Instr),
    (i = .ghSeth ∨ i = .ghInit ∨ i = .ghFinal ∨ ∃ n, i = .ghAad n ∨ i = .ghCt n) → exec i s = .next t →
    exec i (withComparator u s) = .next (withComparator u t)

/-- R121, R154 (I23): the bytes n..15 of a partial block are ignored. -/
def Obligations.FillerBytesIgnored : Prop :=
  ∀ (s : State) (n : Count) (a a' b b' : Block), s.turn = .engine → 1 ≤ n.toNat → n.toNat ≤ 16 →
    (∀ j < n.toNat, blockByte a j = blockByte a' j) →
    exec (.ghAad n) { s with inflight := some ⟨.ghAad n, a, b⟩ } =
      exec (.ghAad n) { s with inflight := some ⟨.ghAad n, a', b'⟩ } ∧
    exec (.ghCt n) { s with inflight := some ⟨.ghCt n, a, b⟩ } =
      exec (.ghCt n) { s with inflight := some ⟨.ghCt n, a', b'⟩ } ∧
    ((∀ j < n.toNat, blockByte b j = blockByte b' j) →
      exec (.ctFeed n) { s with inflight := some ⟨.ctFeed n, a, b⟩ } =
        exec (.ctFeed n) { s with inflight := some ⟨.ctFeed n, a', b'⟩ })

/-! ### The field -/

/-- R102, with R100's mapping: field addition is bitwise exclusive-or, which is coefficient-wise addition. The mapping
is pinned by the three consequences R100 draws from it, and distinct values are distinct elements. -/
def Obligations.FieldSum : Prop :=
  (∀ a b : Block, gfadd a b = a ^^^ b ∧ elem (gfadd a b) = elem a + elem b) ∧
  (elem 0x80000000000000000000000000000000#128 = 1 ∧
    elem 0x40000000000000000000000000000000#128 = Polynomial.X ∧
    elem 0x00000000000000000000000000000001#128 = Polynomial.X ^ 127) ∧
  ∀ v w : Block, elem v = elem w → v = w

/-- R103, R101: `gfmul(a, b)` is the value whose element is the product modulo P, and the only one. -/
def Obligations.FieldProduct : Prop :=
  ∀ a b v : Block, v = gfmul a b ↔ elem v = (elem a * elem b) %ₘ fieldPoly

/-- R108, the laws that do not need P irreducible. -/
def Obligations.FieldLaws : Prop :=
  ∀ a b c : Block,
    gfmul a b = gfmul b a ∧ gfmul (gfmul a b) c = gfmul a (gfmul b c) ∧
    gfmul a (b ^^^ c) = gfmul a b ^^^ gfmul a c ∧
    gfmul a 0x80000000000000000000000000000000#128 = a ∧ gfmul a 0 = 0

/-! ### The functions the block computes -/

/-- R129: the GHASH command sequence computes the source's ghash, for all byte strings within the bound. -/
def Obligations.GhashCorrespondence : Prop :=
  ∀ (s : State) (h : Block) (a c : List Byte) (rest : List Event),
    s.CleanEntry → s.KeyLoaded h → 8 * a.length ≤ 2 ^ 64 - 8 → 8 * c.length ≤ 2 ^ 64 - 8 →
    s.agenda = ghashSequence a c ++ rest →
    allAccepted (ghashSequence a c).length s ∧
    ∃ t, Host.Core.run Sys2Proof.core (ghashSequence a c).length s = .next t ∧
      t.phase = .done ∧ t.y = ghash h a c ∧ t.inflight = none ∧ t.errcode = .noError ∧ t.agenda = rest

/-- R156: the comparator command sequence computes ct_equal. -/
def Obligations.ComparatorCorrespondence : Prop :=
  ∀ (s : State) (a b filler : List Byte) (rest : List Event),
    s.CleanEntry → a.length ≤ 2 ^ 64 - 1 → b.length ≤ 2 ^ 64 - 1 →
    s.agenda = compareSequence a b filler ++ rest →
    allAccepted (compareSequence a b filler).length s ∧
    ∃ t, Host.Core.run Sys2Proof.core (compareSequence a b filler).length s = .next t ∧
      t.cmpEq = ctEqual a b ∧ t.inflight = none ∧ t.errcode = .noError ∧ t.agenda = rest

/-- R223: over any run without reset, CLR_ERR or ZERO from ERRCODE = 0, ERR = 0 at the end if and only if every CMD
write was accepted. -/
def Obligations.ErrorCheckAtTheEnd : Prop :=
  ∀ (k : Nat) (s t : State), s.errcode = .noError → noClear k s →
    Host.Core.run Sys2Proof.core k s = .next t → (t.errcode = .noError ↔ allAccepted k s)

/-- R220: every run ends, within one step more than its events, in the state `endOfRun` gives, and in no other. Without
a reset scheduled, what is observed there stays (pending `Complete` steps are not enabled). The host can read ID, STATUS,
OPA, OPB, RES, Y, LENA and LENC of it and no more. That the engine completes once nothing is scheduled is the model's form
of weak fairness (notes/assumptions/5.md), and what counts as a host's step beside a reset is notes/assumptions/20.md. -/
def Obligations.EndOfRun : Prop :=
  ∀ s : State,
    (∃ k ≤ s.agenda.length + 1, RunEndsAt k s (endOfRun s) ∧
      ∀ (j : Nat) (t : State), RunEndsAt j s t → j = k ∧ t = endOfRun s) ∧
    ((∀ d, Event.reset d ∉ s.agenda) →
      ∀ (k : Nat) (t : State), Host.Core.run Sys2Proof.core k (endOfRun s) = .next t →
        observation t = observation (endOfRun s) ∧ runEnded t = true) ∧
    ∀ u : State,
      s.opa = u.opa ∧ s.opb = u.opb ∧ s.res = u.res ∧ s.y = u.y ∧ s.lena = u.lena ∧ s.lenc = u.lenc ∧
        s.status = u.status →
      ∀ off : Offset, hostRead off s = hostRead off u

/-! ### Invariants -/

/-- R28, R29, R153, R190: the invariant holds at reset. -/
def Obligations.InvariantAtReset : Prop := State.reset.Inv

/-- R28, R29, R153, R190: every step keeps the invariant. -/
def Obligations.InvariantKeptByStep : Prop := ∀ s t : State, s.Inv → step s = .next t → t.Inv

/-- R25, R26, R31, R132: the counters never wrap. -/
def Obligations.CountersNeverWrap : Prop :=
  ∀ (s t : State) (f : Inflight) (n : Count), s.Inv → step s = .next t → s.inflight = some f → t.inflight = none →
    (∀ d rest, s.agenda ≠ .reset d :: rest) →
    (f.instr = .ghAad n → t.lena.toNat = s.lena.toNat + 8 * n.toNat) ∧
    (f.instr = .ghCt n → t.lenc.toNat = s.lenc.toNat + 8 * n.toNat) ∧
    (f.instr = .ctFeed n → t.rem.toNat + n.toNat = s.rem.toNat)

/-! ### Timing -/

/-- R218, R4: the latency table, in the OPEN parameters. -/
def Obligations.LatencyTable : Prop :=
  1 ≤ Config.latMul ∧ 1 ≤ Config.latSimple ∧ latency .gfMul = Config.latMul ∧ latency .ghFinal = Config.latMul ∧
  (∀ n, latency (.ghAad n) = Config.latMul ∧ latency (.ghCt n) = Config.latMul ∧
    latency (.ctFeed n) = Config.latSimple) ∧
  ∀ i ∈ [Instr.nop, .gfAdd, .zero, .clrErr, .ghSeth, .ghInit, .ctClear, .ctLen], latency i = Config.latSimple
end

