-- ==== Sys2Proof/Laws/Bytes.lean ====
section
/-! SUPPORT. The bytes of a block (00_scope.md R10): zero padding (41_ghash.md R121), byte counts and their sums, and
blocks made of byte strings (R120). -/

namespace Sys2Proof.Reference

open Sys2Proof.Machine

/-! ### counts -/

theorem countOk_of {n : Count} (h1 : 1 ≤ n.toNat) (h2 : n.toNat ≤ 16) : countOk n = true := by
  unfold countOk; simp; omega

theorem count_eq_sixteen (n : Count) : n = 16 ↔ n.toNat = 16 := by
  constructor
  · rintro rfl; rfl
  · intro h; exact BitVec.eq_of_toNat_eq h

/-- A counter that does not pass its bound does not wrap. -/
theorem add_bitCount {l : Length} {n : Count} (h : l.toNat + 8 * n.toNat ≤ 2 ^ 64 - 1) :
    (l + bitCount n).toNat = l.toNat + 8 * n.toNat := by
  have := n.isLt
  simp only [bitCount, BitVec.toNat_add, BitVec.toNat_ofNat]; omega

theorem sub_byteCount {l : Length} {n : Count} (h : n.toNat ≤ l.toNat) :
    (l - byteCount n).toNat = l.toNat - n.toNat := by
  have := l.isLt
  have := n.isLt
  simp only [byteCount, BitVec.toNat_sub, BitVec.toNat_ofNat]; omega

/-! ### bytes and padding -/

theorem block_ext_bytes {x y : Block} (h : ∀ j < 16, blockByte x j = blockByte y j) : x = y := by
  apply BitVec.eq_of_getLsbD_eq; intro i hi
  have := congrArg (BitVec.getLsbD · (i % 8)) (h (15 - i / 8) (by omega))
  simp only [blockByte, BitVec.getLsbD_extractLsb', Nat.mod_lt i (by decide : 0 < 8), decide_true,
    Bool.true_and] at this
  rwa [show 120 - 8 * (15 - i / 8) + i % 8 = i by omega] at this

theorem blockByte_xor (a b : Block) (j : Nat) : blockByte (a ^^^ b) j = blockByte a j ^^^ blockByte b j := by
  apply BitVec.eq_of_getLsbD_eq; intro i hi
  simp [blockByte, hi]

theorem blockByte_zero (j : Nat) : blockByte 0 j = 0 := by
  apply BitVec.eq_of_getLsbD_eq; intro i hi; simp [blockByte]

theorem ones_getLsbD {k : Nat} (hk : k ≤ 128) (i : Nat) :
    (BitVec.ofNat 128 (2 ^ k - 1)).getLsbD i = decide (i < k) := by
  rw [BitVec.getLsbD_ofNat, Nat.testBit_two_pow_sub_one]
  by_cases h : i < 128
  · simp [h]
  · simp [h]; omega

theorem pad_getLsbD (n : Count) (v : Block) (i : Nat) :
    (pad n v).getLsbD i = (decide (8 * (16 - n.toNat) ≤ i) && v.getLsbD i) := by
  unfold pad
  rw [BitVec.getLsbD_and, BitVec.getLsbD_not, ones_getLsbD (by omega)]
  by_cases h : i < 128
  · by_cases h' : 8 * (16 - n.toNat) ≤ i
    · simp [h, h']
    · simp [h, h']; omega
  · simp [BitVec.getLsbD_of_ge v i (by omega)]

/-- `pad_n` keeps bytes 0..n-1 and clears the others (R121). -/
theorem blockByte_pad {n : Count} (h1 : 1 ≤ n.toNat) (h2 : n.toNat ≤ 16) (v : Block) :
    ∀ j < 16, blockByte (pad n v) j = if j < n.toNat then blockByte v j else 0 := by
  intro j hj
  apply BitVec.eq_of_getLsbD_eq; intro i hi
  simp only [blockByte, BitVec.getLsbD_extractLsb', pad_getLsbD]
  split
  · simp [hi]; omega
  · simp [hi]; omega

/-- A padded difference is 0 exactly where the first n byte pairs are equal (R154). -/
theorem pad_xor_ne {n : Count} (h1 : 1 ≤ n.toNat) (h2 : n.toNat ≤ 16) (a b : Block) :
    (pad n (a ^^^ b) != 0) = true ↔ ∃ j < n.toNat, blockByte a j ≠ blockByte b j := by
  rw [bne_iff_ne, ne_eq, ← not_iff_not, not_not]
  push Not
  constructor
  · intro h j hj
    have := blockByte_pad h1 h2 (a ^^^ b) j (by omega)
    rw [h, if_pos hj, blockByte_xor, blockByte_zero] at this
    exact BitVec.xor_eq_zero_iff.1 this.symm
  · intro h
    apply block_ext_bytes
    intro j hj
    rw [blockByte_pad h1 h2 _ j hj]
    split
    · rename_i hjn
      rw [blockByte_xor, h j hjn, blockByte_zero]
      simp
    · exact (blockByte_zero j).symm

/-! ### byte strings -/

theorem blockFold_getLsbD (bs : List Byte) : ∀ k ≤ 16, ∀ i,
    ((List.range k).foldl (fun (v : Block) j => (v <<< 8) ||| (bs.getD j 0).zeroExtend 128) 0).getLsbD i =
      if i < 8 * k then (bs.getD (k - 1 - i / 8) 0).getLsbD (i % 8) else false := by
  intro k hk
  induction k with
  | zero => intro i; simp
  | succ k ih =>
    intro i
    rw [List.range_succ, List.foldl_append, List.foldl_cons, List.foldl_nil, BitVec.getLsbD_or,
      BitVec.getLsbD_shiftLeft, ih (by omega), show ∀ v : Byte, v.zeroExtend 128 = v.setWidth 128 from fun _ => rfl,
      BitVec.getLsbD_setWidth]
    by_cases h8 : i < 8
    · simp [h8, show i < 128 by omega, show i / 8 = 0 by omega, show i % 8 = i by omega, show i < 8 * (k + 1) by omega]
    · by_cases h : i < 8 * (k + 1)
      · simp [h8, h, show i < 128 by omega, show i - 8 < 8 * k by omega]
        rw [show k - 1 - (i - 8) / 8 = k - i / 8 by omega, show (i - 8) % 8 = i % 8 by omega]
        simp [BitVec.getLsbD_of_ge _ i (by omega : 8 ≤ i)]
      · simp [h8, h, show ¬ i - 8 < 8 * k by omega]
        intro _
        simp [BitVec.getLsbD_of_ge _ i (by omega : 8 ≤ i)]

theorem blockByte_blockValue (bs : List Byte) (j : Nat) (hj : j < 16) : blockByte (blockValue bs) j = bs.getD j 0 := by
  apply BitVec.eq_of_getLsbD_eq; intro i hi
  rw [blockByte, BitVec.getLsbD_extractLsb', blockValue, blockFold_getLsbD bs 16 (le_refl _)]
  simp only [hi, decide_true, Bool.true_and]
  rw [if_pos (by omega)]
  congr 1
  · congr 1; omega
  · omega

theorem pad_blockValue {bs : List Byte} {n : Count} (h1 : 1 ≤ n.toNat) (h2 : n.toNat ≤ 16)
    (hn : bs.length ≤ n.toNat) : pad n (blockValue bs) = blockValue bs := by
  apply block_ext_bytes; intro j hj
  rw [blockByte_pad h1 h2 _ j hj]
  split
  · rfl
  · rw [blockByte_blockValue _ _ hj, List.getD_eq_default]; omega

theorem chunk_length (d : List Byte) (j : Nat) : (chunk d j).length = min 16 (d.length - 16 * j) := by simp [chunk]

theorem chunk_getD (d : List Byte) (k j : Nat) (hj : j < 16) : (chunk d k).getD j 0 = d.getD (16 * k + j) 0 := by
  simp only [chunk, List.getD_eq_getElem?_getD, List.getElem?_take, List.getElem?_drop, hj, if_true]

end Sys2Proof.Reference
end

