-- ==== Sys2Proof/Laws/PerInstr.lean ====
section
/-! SUPPORT. A statement about every command, one lemma per constructor: the fields of the encoded word (30_encoding.md
R81). -/

namespace Sys2Proof.Laws.EncodedFields

/-- The word of `i` holds its opcode in OPC, its count in N and 0 in RSVD (R81). -/
def Statement (i : Instr) : Prop :=
  opcField (encode i) = i.opcode ∧ countField (encode i) = i.count ∧ rsvdField (encode i) = 0

theorem nop : Statement .nop := by unfold Statement; decide
theorem gfMul : Statement .gfMul := by unfold Statement; decide
theorem gfAdd : Statement .gfAdd := by unfold Statement; decide
theorem zero : Statement .zero := by unfold Statement; decide
theorem clrErr : Statement .clrErr := by unfold Statement; decide
theorem ghSeth : Statement .ghSeth := by unfold Statement; decide
theorem ghInit : Statement .ghInit := by unfold Statement; decide
theorem ghAad (n : Count) : Statement (.ghAad n) := by revert n; unfold Statement; decide
theorem ghCt (n : Count) : Statement (.ghCt n) := by revert n; unfold Statement; decide
theorem ghFinal : Statement .ghFinal := by unfold Statement; decide
theorem ctClear : Statement .ctClear := by unfold Statement; decide
theorem ctLen : Statement .ctLen := by unfold Statement; decide
theorem ctFeed (n : Count) : Statement (.ctFeed n) := by revert n; unfold Statement; decide

end Sys2Proof.Laws.EncodedFields
end

