-- ==== Sys2Proof/Laws/Decode.lean ====
section
/-! SUPPORT. A command word is its three fields (30_encoding.md R81), and what a decoded word's fields are. -/

namespace Sys2Proof

theorem word_fields (w : Word) :
    w.toNat = (opcField w).toNat + 256 * (countField w).toNat + 8192 * (rsvdField w).toNat := by
  simp only [opcField, countField, rsvdField, BitVec.extractLsb'_toNat]
  have := w.isLt
  simp only [Nat.shiftRight_eq_div_pow]
  omega

theorem word_ext {w v : Word} (h1 : opcField w = opcField v) (h2 : countField w = countField v)
    (h3 : rsvdField w = rsvdField v) : w = v := by
  apply BitVec.eq_of_toNat_eq
  rw [word_fields w, word_fields v, h1, h2, h3]

/-- The fields of a word that decodes to `i`. -/
theorem decode_fields {w : Word} {i : Instr} (h : decode w = .ok i) :
    opcField w = i.opcode ∧ countField w = i.count ∧ rsvdField w = 0 := by
  unfold decode at h
  split at h
  · cases h
  · rename_i h0
    simp only [ne_eq, not_not] at h0
    unfold countedCommand plainCommand at h
    split at h
    · rename_i j hj
      cases h
      (repeat' split at hj) <;> first | (cases hj; exact ⟨by assumption, rfl, h0⟩) | cases hj
    · split at h
      · rename_i j hj
        split at h
        · cases h
        · rename_i hc
          simp only [ne_eq, not_not] at hc
          cases h
          (repeat' split at hj) <;> first | (cases hj; exact ⟨by assumption, hc, h0⟩) | cases hj
      · cases h

end Sys2Proof
end

