-- ==== Sys2Proof/Laws/State.lean ====
section
/-! SUPPORT. One lemma per field for each named update of the state, so that no later proof unfolds an update. Each says
what the update leaves, or what it writes. -/

namespace Sys2Proof.Machine

/-! ### raise: the error-recording action (R188) -/

@[simp] theorem raise_opa (c : ErrCode) (s : State) : (raise c s).opa = s.opa := by
  unfold raise; split <;> rfl

@[simp] theorem raise_opb (c : ErrCode) (s : State) : (raise c s).opb = s.opb := by
  unfold raise; split <;> rfl

@[simp] theorem raise_res (c : ErrCode) (s : State) : (raise c s).res = s.res := by
  unfold raise; split <;> rfl

@[simp] theorem raise_y (c : ErrCode) (s : State) : (raise c s).y = s.y := by
  unfold raise; split <;> rfl

@[simp] theorem raise_lena (c : ErrCode) (s : State) : (raise c s).lena = s.lena := by
  unfold raise; split <;> rfl

@[simp] theorem raise_lenc (c : ErrCode) (s : State) : (raise c s).lenc = s.lenc := by
  unfold raise; split <;> rfl

@[simp] theorem raise_h (c : ErrCode) (s : State) : (raise c s).h = s.h := by
  unfold raise; split <;> rfl

@[simp] theorem raise_hvalid (c : ErrCode) (s : State) : (raise c s).hvalid = s.hvalid := by
  unfold raise; split <;> rfl

@[simp] theorem raise_phase (c : ErrCode) (s : State) : (raise c s).phase = s.phase := by
  unfold raise; split <;> rfl

@[simp] theorem raise_diff (c : ErrCode) (s : State) : (raise c s).diff = s.diff := by
  unfold raise; split <;> rfl

@[simp] theorem raise_lenmis (c : ErrCode) (s : State) : (raise c s).lenmis = s.lenmis := by
  unfold raise; split <;> rfl

@[simp] theorem raise_armed (c : ErrCode) (s : State) : (raise c s).armed = s.armed := by
  unfold raise; split <;> rfl

@[simp] theorem raise_rem (c : ErrCode) (s : State) : (raise c s).rem = s.rem := by
  unfold raise; split <;> rfl

@[simp] theorem raise_errcode (c : ErrCode) (s : State) :
    (raise c s).errcode = if s.errcode = .noError then c else s.errcode := by
  unfold raise; split <;> rfl

@[simp] theorem raise_inflight (c : ErrCode) (s : State) : (raise c s).inflight = s.inflight := by
  unfold raise; split <;> rfl

@[simp] theorem raise_agenda (c : ErrCode) (s : State) : (raise c s).agenda = s.agenda := by
  unfold raise; split <;> rfl

@[simp] theorem raise_turn (c : ErrCode) (s : State) : (raise c s).turn = s.turn := by
  unfold raise; split <;> rfl

@[simp] theorem raise_rdata (c : ErrCode) (s : State) : (raise c s).rdata = s.rdata := by
  unfold raise; split <;> rfl

/-! ### clearError: ERRCODE <- 0 (R190) -/

@[simp] theorem clearError_opa (s : State) : (clearError s).opa = s.opa := rfl

@[simp] theorem clearError_opb (s : State) : (clearError s).opb = s.opb := rfl

@[simp] theorem clearError_res (s : State) : (clearError s).res = s.res := rfl

@[simp] theorem clearError_y (s : State) : (clearError s).y = s.y := rfl

@[simp] theorem clearError_lena (s : State) : (clearError s).lena = s.lena := rfl

@[simp] theorem clearError_lenc (s : State) : (clearError s).lenc = s.lenc := rfl

@[simp] theorem clearError_h (s : State) : (clearError s).h = s.h := rfl

@[simp] theorem clearError_hvalid (s : State) : (clearError s).hvalid = s.hvalid := rfl

@[simp] theorem clearError_phase (s : State) : (clearError s).phase = s.phase := rfl

@[simp] theorem clearError_diff (s : State) : (clearError s).diff = s.diff := rfl

@[simp] theorem clearError_lenmis (s : State) : (clearError s).lenmis = s.lenmis := rfl

@[simp] theorem clearError_armed (s : State) : (clearError s).armed = s.armed := rfl

@[simp] theorem clearError_rem (s : State) : (clearError s).rem = s.rem := rfl

@[simp] theorem clearError_errcode (s : State) : (clearError s).errcode = .noError := rfl

@[simp] theorem clearError_inflight (s : State) : (clearError s).inflight = s.inflight := rfl

@[simp] theorem clearError_agenda (s : State) : (clearError s).agenda = s.agenda := rfl

@[simp] theorem clearError_turn (s : State) : (clearError s).turn = s.turn := rfl

@[simp] theorem clearError_rdata (s : State) : (clearError s).rdata = s.rdata := rfl

/-! ### schedule: what the agents do next (R70) -/

@[simp] theorem schedule_opa (rest : List Event) (s : State) : (schedule rest s).opa = s.opa := rfl

@[simp] theorem schedule_opb (rest : List Event) (s : State) : (schedule rest s).opb = s.opb := rfl

@[simp] theorem schedule_res (rest : List Event) (s : State) : (schedule rest s).res = s.res := rfl

@[simp] theorem schedule_y (rest : List Event) (s : State) : (schedule rest s).y = s.y := rfl

@[simp] theorem schedule_lena (rest : List Event) (s : State) : (schedule rest s).lena = s.lena := rfl

@[simp] theorem schedule_lenc (rest : List Event) (s : State) : (schedule rest s).lenc = s.lenc := rfl

@[simp] theorem schedule_h (rest : List Event) (s : State) : (schedule rest s).h = s.h := rfl

@[simp] theorem schedule_hvalid (rest : List Event) (s : State) : (schedule rest s).hvalid = s.hvalid := rfl

@[simp] theorem schedule_phase (rest : List Event) (s : State) : (schedule rest s).phase = s.phase := rfl

@[simp] theorem schedule_diff (rest : List Event) (s : State) : (schedule rest s).diff = s.diff := rfl

@[simp] theorem schedule_lenmis (rest : List Event) (s : State) : (schedule rest s).lenmis = s.lenmis := rfl

@[simp] theorem schedule_armed (rest : List Event) (s : State) : (schedule rest s).armed = s.armed := rfl

@[simp] theorem schedule_rem (rest : List Event) (s : State) : (schedule rest s).rem = s.rem := rfl

@[simp] theorem schedule_errcode (rest : List Event) (s : State) : (schedule rest s).errcode = s.errcode := rfl

@[simp] theorem schedule_inflight (rest : List Event) (s : State) : (schedule rest s).inflight = s.inflight := rfl

@[simp] theorem schedule_agenda (rest : List Event) (s : State) : (schedule rest s).agenda = rest := rfl

@[simp] theorem schedule_turn (rest : List Event) (s : State) : (schedule rest s).turn = s.turn := rfl

@[simp] theorem schedule_rdata (rest : List Event) (s : State) : (schedule rest s).rdata = s.rdata := rfl

/-! ### actAs: whose step this is (R7) -/

@[simp] theorem actAs_opa (agent : Agent) (s : State) : (actAs agent s).opa = s.opa := rfl

@[simp] theorem actAs_opb (agent : Agent) (s : State) : (actAs agent s).opb = s.opb := rfl

@[simp] theorem actAs_res (agent : Agent) (s : State) : (actAs agent s).res = s.res := rfl

@[simp] theorem actAs_y (agent : Agent) (s : State) : (actAs agent s).y = s.y := rfl

@[simp] theorem actAs_lena (agent : Agent) (s : State) : (actAs agent s).lena = s.lena := rfl

@[simp] theorem actAs_lenc (agent : Agent) (s : State) : (actAs agent s).lenc = s.lenc := rfl

@[simp] theorem actAs_h (agent : Agent) (s : State) : (actAs agent s).h = s.h := rfl

@[simp] theorem actAs_hvalid (agent : Agent) (s : State) : (actAs agent s).hvalid = s.hvalid := rfl

@[simp] theorem actAs_phase (agent : Agent) (s : State) : (actAs agent s).phase = s.phase := rfl

@[simp] theorem actAs_diff (agent : Agent) (s : State) : (actAs agent s).diff = s.diff := rfl

@[simp] theorem actAs_lenmis (agent : Agent) (s : State) : (actAs agent s).lenmis = s.lenmis := rfl

@[simp] theorem actAs_armed (agent : Agent) (s : State) : (actAs agent s).armed = s.armed := rfl

@[simp] theorem actAs_rem (agent : Agent) (s : State) : (actAs agent s).rem = s.rem := rfl

@[simp] theorem actAs_errcode (agent : Agent) (s : State) : (actAs agent s).errcode = s.errcode := rfl

@[simp] theorem actAs_inflight (agent : Agent) (s : State) : (actAs agent s).inflight = s.inflight := rfl

@[simp] theorem actAs_agenda (agent : Agent) (s : State) : (actAs agent s).agenda = s.agenda := rfl

@[simp] theorem actAs_turn (agent : Agent) (s : State) : (actAs agent s).turn = agent := rfl

@[simp] theorem actAs_rdata (agent : Agent) (s : State) : (actAs agent s).rdata = s.rdata := rfl

/-! ### freeSlot: INFLIGHT <- none (R191) -/

@[simp] theorem freeSlot_opa (s : State) : (freeSlot s).opa = s.opa := rfl

@[simp] theorem freeSlot_opb (s : State) : (freeSlot s).opb = s.opb := rfl

@[simp] theorem freeSlot_res (s : State) : (freeSlot s).res = s.res := rfl

@[simp] theorem freeSlot_y (s : State) : (freeSlot s).y = s.y := rfl

@[simp] theorem freeSlot_lena (s : State) : (freeSlot s).lena = s.lena := rfl

@[simp] theorem freeSlot_lenc (s : State) : (freeSlot s).lenc = s.lenc := rfl

@[simp] theorem freeSlot_h (s : State) : (freeSlot s).h = s.h := rfl

@[simp] theorem freeSlot_hvalid (s : State) : (freeSlot s).hvalid = s.hvalid := rfl

@[simp] theorem freeSlot_phase (s : State) : (freeSlot s).phase = s.phase := rfl

@[simp] theorem freeSlot_diff (s : State) : (freeSlot s).diff = s.diff := rfl

@[simp] theorem freeSlot_lenmis (s : State) : (freeSlot s).lenmis = s.lenmis := rfl

@[simp] theorem freeSlot_armed (s : State) : (freeSlot s).armed = s.armed := rfl

@[simp] theorem freeSlot_rem (s : State) : (freeSlot s).rem = s.rem := rfl

@[simp] theorem freeSlot_errcode (s : State) : (freeSlot s).errcode = s.errcode := rfl

@[simp] theorem freeSlot_inflight (s : State) : (freeSlot s).inflight = none := rfl

@[simp] theorem freeSlot_agenda (s : State) : (freeSlot s).agenda = s.agenda := rfl

@[simp] theorem freeSlot_turn (s : State) : (freeSlot s).turn = s.turn := rfl

@[simp] theorem freeSlot_rdata (s : State) : (freeSlot s).rdata = s.rdata := rfl

/-! ### latch: INFLIGHT <- the command and its operands (R190) -/

@[simp] theorem latch_opa (i : Instr) (s : State) : (latch i s).opa = s.opa := rfl

@[simp] theorem latch_opb (i : Instr) (s : State) : (latch i s).opb = s.opb := rfl

@[simp] theorem latch_res (i : Instr) (s : State) : (latch i s).res = s.res := rfl

@[simp] theorem latch_y (i : Instr) (s : State) : (latch i s).y = s.y := rfl

@[simp] theorem latch_lena (i : Instr) (s : State) : (latch i s).lena = s.lena := rfl

@[simp] theorem latch_lenc (i : Instr) (s : State) : (latch i s).lenc = s.lenc := rfl

@[simp] theorem latch_h (i : Instr) (s : State) : (latch i s).h = s.h := rfl

@[simp] theorem latch_hvalid (i : Instr) (s : State) : (latch i s).hvalid = s.hvalid := rfl

@[simp] theorem latch_phase (i : Instr) (s : State) : (latch i s).phase = s.phase := rfl

@[simp] theorem latch_diff (i : Instr) (s : State) : (latch i s).diff = s.diff := rfl

@[simp] theorem latch_lenmis (i : Instr) (s : State) : (latch i s).lenmis = s.lenmis := rfl

@[simp] theorem latch_armed (i : Instr) (s : State) : (latch i s).armed = s.armed := rfl

@[simp] theorem latch_rem (i : Instr) (s : State) : (latch i s).rem = s.rem := rfl

@[simp] theorem latch_errcode (i : Instr) (s : State) : (latch i s).errcode = s.errcode := rfl

@[simp] theorem latch_inflight (i : Instr) (s : State) : (latch i s).inflight = some ⟨i, s.opa, s.opb⟩ := rfl

@[simp] theorem latch_agenda (i : Instr) (s : State) : (latch i s).agenda = s.agenda := rfl

@[simp] theorem latch_turn (i : Instr) (s : State) : (latch i s).turn = s.turn := rfl

@[simp] theorem latch_rdata (i : Instr) (s : State) : (latch i s).rdata = s.rdata := rfl

/-! ### accept: a command goes in flight (R190) -/

@[simp] theorem accept_opa (i : Instr) (s : State) : (accept i s).opa = s.opa := by
  unfold accept; split <;> rfl

@[simp] theorem accept_opb (i : Instr) (s : State) : (accept i s).opb = s.opb := by
  unfold accept; split <;> rfl

@[simp] theorem accept_res (i : Instr) (s : State) : (accept i s).res = s.res := by
  unfold accept; split <;> rfl

@[simp] theorem accept_y (i : Instr) (s : State) : (accept i s).y = s.y := by
  unfold accept; split <;> rfl

@[simp] theorem accept_lena (i : Instr) (s : State) : (accept i s).lena = s.lena := by
  unfold accept; split <;> rfl

@[simp] theorem accept_lenc (i : Instr) (s : State) : (accept i s).lenc = s.lenc := by
  unfold accept; split <;> rfl

@[simp] theorem accept_h (i : Instr) (s : State) : (accept i s).h = s.h := by
  unfold accept; split <;> rfl

@[simp] theorem accept_hvalid (i : Instr) (s : State) : (accept i s).hvalid = s.hvalid := by
  unfold accept; split <;> rfl

@[simp] theorem accept_phase (i : Instr) (s : State) : (accept i s).phase = s.phase := by
  unfold accept; split <;> rfl

@[simp] theorem accept_diff (i : Instr) (s : State) : (accept i s).diff = s.diff := by
  unfold accept; split <;> rfl

@[simp] theorem accept_lenmis (i : Instr) (s : State) : (accept i s).lenmis = s.lenmis := by
  unfold accept; split <;> rfl

@[simp] theorem accept_armed (i : Instr) (s : State) : (accept i s).armed = s.armed := by
  unfold accept; split <;> rfl

@[simp] theorem accept_rem (i : Instr) (s : State) : (accept i s).rem = s.rem := by
  unfold accept; split <;> rfl

@[simp] theorem accept_errcode (i : Instr) (s : State) :
    (accept i s).errcode = if clearsError i then .noError else s.errcode := by
  unfold accept; split <;> rfl

@[simp] theorem accept_inflight (i : Instr) (s : State) : (accept i s).inflight = some ⟨i, s.opa, s.opb⟩ := by
  unfold accept; split <;> rfl

@[simp] theorem accept_agenda (i : Instr) (s : State) : (accept i s).agenda = s.agenda := by
  unfold accept; split <;> rfl

@[simp] theorem accept_turn (i : Instr) (s : State) : (accept i s).turn = s.turn := by
  unfold accept; split <;> rfl

@[simp] theorem accept_rdata (i : Instr) (s : State) : (accept i s).rdata = s.rdata := by
  unfold accept; split <;> rfl

/-! ### writeOperand: a host write that issues nothing (R62, R64) -/

@[simp] theorem writeOperand_res (r : Reg) (v : Word) (s : State) : (writeOperand r v s).res = s.res := by
  cases r <;> rfl

@[simp] theorem writeOperand_y (r : Reg) (v : Word) (s : State) : (writeOperand r v s).y = s.y := by
  cases r <;> rfl

@[simp] theorem writeOperand_lena (r : Reg) (v : Word) (s : State) : (writeOperand r v s).lena = s.lena := by
  cases r <;> rfl

@[simp] theorem writeOperand_lenc (r : Reg) (v : Word) (s : State) : (writeOperand r v s).lenc = s.lenc := by
  cases r <;> rfl

@[simp] theorem writeOperand_h (r : Reg) (v : Word) (s : State) : (writeOperand r v s).h = s.h := by
  cases r <;> rfl

@[simp] theorem writeOperand_hvalid (r : Reg) (v : Word) (s : State) : (writeOperand r v s).hvalid = s.hvalid := by
  cases r <;> rfl

@[simp] theorem writeOperand_phase (r : Reg) (v : Word) (s : State) : (writeOperand r v s).phase = s.phase := by
  cases r <;> rfl

@[simp] theorem writeOperand_diff (r : Reg) (v : Word) (s : State) : (writeOperand r v s).diff = s.diff := by
  cases r <;> rfl

@[simp] theorem writeOperand_lenmis (r : Reg) (v : Word) (s : State) : (writeOperand r v s).lenmis = s.lenmis := by
  cases r <;> rfl

@[simp] theorem writeOperand_armed (r : Reg) (v : Word) (s : State) : (writeOperand r v s).armed = s.armed := by
  cases r <;> rfl

@[simp] theorem writeOperand_rem (r : Reg) (v : Word) (s : State) : (writeOperand r v s).rem = s.rem := by
  cases r <;> rfl

@[simp] theorem writeOperand_errcode (r : Reg) (v : Word) (s : State) : (writeOperand r v s).errcode = s.errcode := by
  cases r <;> rfl

@[simp] theorem writeOperand_inflight (r : Reg) (v : Word) (s : State) : (writeOperand r v s).inflight = s.inflight := by
  cases r <;> rfl

@[simp] theorem writeOperand_agenda (r : Reg) (v : Word) (s : State) : (writeOperand r v s).agenda = s.agenda := by
  cases r <;> rfl

@[simp] theorem writeOperand_turn (r : Reg) (v : Word) (s : State) : (writeOperand r v s).turn = s.turn := by
  cases r <;> rfl

@[simp] theorem writeOperand_rdata (r : Reg) (v : Word) (s : State) : (writeOperand r v s).rdata = s.rdata := by
  cases r <;> rfl

/-! ### readStep: a host read (R62, R68) -/

@[simp] theorem readStep_opa (off : Offset) (s : State) : (readStep off s).opa = s.opa := rfl

@[simp] theorem readStep_opb (off : Offset) (s : State) : (readStep off s).opb = s.opb := rfl

@[simp] theorem readStep_res (off : Offset) (s : State) : (readStep off s).res = s.res := rfl

@[simp] theorem readStep_y (off : Offset) (s : State) : (readStep off s).y = s.y := rfl

@[simp] theorem readStep_lena (off : Offset) (s : State) : (readStep off s).lena = s.lena := rfl

@[simp] theorem readStep_lenc (off : Offset) (s : State) : (readStep off s).lenc = s.lenc := rfl

@[simp] theorem readStep_h (off : Offset) (s : State) : (readStep off s).h = s.h := rfl

@[simp] theorem readStep_hvalid (off : Offset) (s : State) : (readStep off s).hvalid = s.hvalid := rfl

@[simp] theorem readStep_phase (off : Offset) (s : State) : (readStep off s).phase = s.phase := rfl

@[simp] theorem readStep_diff (off : Offset) (s : State) : (readStep off s).diff = s.diff := rfl

@[simp] theorem readStep_lenmis (off : Offset) (s : State) : (readStep off s).lenmis = s.lenmis := rfl

@[simp] theorem readStep_armed (off : Offset) (s : State) : (readStep off s).armed = s.armed := rfl

@[simp] theorem readStep_rem (off : Offset) (s : State) : (readStep off s).rem = s.rem := rfl

@[simp] theorem readStep_errcode (off : Offset) (s : State) : (readStep off s).errcode = s.errcode := rfl

@[simp] theorem readStep_inflight (off : Offset) (s : State) : (readStep off s).inflight = s.inflight := rfl

@[simp] theorem readStep_agenda (off : Offset) (s : State) : (readStep off s).agenda = s.agenda := rfl

@[simp] theorem readStep_turn (off : Offset) (s : State) : (readStep off s).turn = s.turn := rfl

@[simp] theorem readStep_rdata (off : Offset) (s : State) : (readStep off s).rdata = hostRead off s := rfl

/-! ### clearRegisters: the effect of ZERO (R171) -/

@[simp] theorem clearRegisters_opa (s : State) : (clearRegisters s).opa = 0 := rfl

@[simp] theorem clearRegisters_opb (s : State) : (clearRegisters s).opb = 0 := rfl

@[simp] theorem clearRegisters_res (s : State) : (clearRegisters s).res = 0 := rfl

@[simp] theorem clearRegisters_y (s : State) : (clearRegisters s).y = 0 := rfl

@[simp] theorem clearRegisters_lena (s : State) : (clearRegisters s).lena = 0 := rfl

@[simp] theorem clearRegisters_lenc (s : State) : (clearRegisters s).lenc = 0 := rfl

@[simp] theorem clearRegisters_h (s : State) : (clearRegisters s).h = 0 := rfl

@[simp] theorem clearRegisters_hvalid (s : State) : (clearRegisters s).hvalid = false := rfl

@[simp] theorem clearRegisters_phase (s : State) : (clearRegisters s).phase = .idle := rfl

@[simp] theorem clearRegisters_diff (s : State) : (clearRegisters s).diff = false := rfl

@[simp] theorem clearRegisters_lenmis (s : State) : (clearRegisters s).lenmis = false := rfl

@[simp] theorem clearRegisters_armed (s : State) : (clearRegisters s).armed = false := rfl

@[simp] theorem clearRegisters_rem (s : State) : (clearRegisters s).rem = 0 := rfl

@[simp] theorem clearRegisters_errcode (s : State) : (clearRegisters s).errcode = s.errcode := rfl

@[simp] theorem clearRegisters_inflight (s : State) : (clearRegisters s).inflight = s.inflight := rfl

@[simp] theorem clearRegisters_agenda (s : State) : (clearRegisters s).agenda = s.agenda := rfl

@[simp] theorem clearRegisters_turn (s : State) : (clearRegisters s).turn = s.turn := rfl

@[simp] theorem clearRegisters_rdata (s : State) : (clearRegisters s).rdata = s.rdata := rfl

/-! ### applyReset: Reset (R210) -/

@[simp] theorem applyReset_opa (s : State) : (applyReset s).opa = 0 := rfl

@[simp] theorem applyReset_opb (s : State) : (applyReset s).opb = 0 := rfl

@[simp] theorem applyReset_res (s : State) : (applyReset s).res = 0 := rfl

@[simp] theorem applyReset_y (s : State) : (applyReset s).y = 0 := rfl

@[simp] theorem applyReset_lena (s : State) : (applyReset s).lena = 0 := rfl

@[simp] theorem applyReset_lenc (s : State) : (applyReset s).lenc = 0 := rfl

@[simp] theorem applyReset_h (s : State) : (applyReset s).h = 0 := rfl

@[simp] theorem applyReset_hvalid (s : State) : (applyReset s).hvalid = false := rfl

@[simp] theorem applyReset_phase (s : State) : (applyReset s).phase = .idle := rfl

@[simp] theorem applyReset_diff (s : State) : (applyReset s).diff = false := rfl

@[simp] theorem applyReset_lenmis (s : State) : (applyReset s).lenmis = false := rfl

@[simp] theorem applyReset_armed (s : State) : (applyReset s).armed = false := rfl

@[simp] theorem applyReset_rem (s : State) : (applyReset s).rem = 0 := rfl

@[simp] theorem applyReset_errcode (s : State) : (applyReset s).errcode = .noError := rfl

@[simp] theorem applyReset_inflight (s : State) : (applyReset s).inflight = none := rfl

@[simp] theorem applyReset_agenda (s : State) : (applyReset s).agenda = s.agenda := rfl

@[simp] theorem applyReset_turn (s : State) : (applyReset s).turn = .host := rfl

@[simp] theorem applyReset_rdata (s : State) : (applyReset s).rdata = s.rdata := rfl

/-! ### scheduleCommand: the host's next access is a CMD write -/

@[simp] theorem scheduleCommand_opa (s : State) (w : Word) :
    (scheduleCommand s w).opa = s.opa := rfl

@[simp] theorem scheduleCommand_opb (s : State) (w : Word) :
    (scheduleCommand s w).opb = s.opb := rfl

@[simp] theorem scheduleCommand_res (s : State) (w : Word) :
    (scheduleCommand s w).res = s.res := rfl

@[simp] theorem scheduleCommand_y (s : State) (w : Word) :
    (scheduleCommand s w).y = s.y := rfl

@[simp] theorem scheduleCommand_lena (s : State) (w : Word) :
    (scheduleCommand s w).lena = s.lena := rfl

@[simp] theorem scheduleCommand_lenc (s : State) (w : Word) :
    (scheduleCommand s w).lenc = s.lenc := rfl

@[simp] theorem scheduleCommand_h (s : State) (w : Word) :
    (scheduleCommand s w).h = s.h := rfl

@[simp] theorem scheduleCommand_hvalid (s : State) (w : Word) :
    (scheduleCommand s w).hvalid = s.hvalid := rfl

@[simp] theorem scheduleCommand_phase (s : State) (w : Word) :
    (scheduleCommand s w).phase = s.phase := rfl

@[simp] theorem scheduleCommand_diff (s : State) (w : Word) :
    (scheduleCommand s w).diff = s.diff := rfl

@[simp] theorem scheduleCommand_lenmis (s : State) (w : Word) :
    (scheduleCommand s w).lenmis = s.lenmis := rfl

@[simp] theorem scheduleCommand_armed (s : State) (w : Word) :
    (scheduleCommand s w).armed = s.armed := rfl

@[simp] theorem scheduleCommand_rem (s : State) (w : Word) :
    (scheduleCommand s w).rem = s.rem := rfl

@[simp] theorem scheduleCommand_errcode (s : State) (w : Word) :
    (scheduleCommand s w).errcode = s.errcode := rfl

@[simp] theorem scheduleCommand_inflight (s : State) (w : Word) :
    (scheduleCommand s w).inflight = s.inflight := rfl

@[simp] theorem scheduleCommand_agenda (s : State) (w : Word) :
    (scheduleCommand s w).agenda = .access (.write cmdOffset w) :: s.agenda := rfl

@[simp] theorem scheduleCommand_turn (s : State) (w : Word) :
    (scheduleCommand s w).turn = s.turn := rfl

@[simp] theorem scheduleCommand_rdata (s : State) (w : Word) :
    (scheduleCommand s w).rdata = s.rdata := rfl

end Sys2Proof.Machine
end

