-- ==== Sys2Proof/Laws/Exec.lean ====
section
/-! SUPPORT. What a command's meaning can do, said once: in the host's turn it is `issue` with the command's own check,
in the engine's turn it is `finish` with the command's own effect; and what each of those two can do. -/

namespace Sys2Proof.Machine

theorem exec_host (i : Instr) {s : State} (h : s.turn = .host) : exec i s = .next (issue i (checkOf i s) s) := by
  cases i <;>
    simp [exec, execNop, execGfMul, execGfAdd, execZero, execClrErr, execGhSeth, execGhInit, execGhAad, execGhCt,
      execGhFinal, execCtClear, execCtLen, execCtFeed, runCommand, checkOf, h]

theorem exec_engine (i : Instr) {s : State} (h : s.turn = .engine) : exec i s = .next (finish i (effectOf i) s) := by
  cases i <;>
    simp [exec, execNop, execGfMul, execGfAdd, execZero, execClrErr, execGhSeth, execGhInit, execGhAad, execGhCt,
      execGhFinal, execCtClear, execCtLen, execCtFeed, runCommand, h] <;> rfl

/-- A meaning always answers a next state. -/
theorem exec_next (i : Instr) (s : State) : ∃ t, exec i s = .next t := by
  cases h : s.turn with
  | host => exact ⟨_, exec_host i h⟩
  | engine => exact ⟨_, exec_engine i h⟩

theorem raise_eq (c : ErrCode) (s : State) :
    raise c s = { s with errcode := if s.errcode = .noError then c else s.errcode } := by
  unfold raise; split <;> simp_all

/-- R192: BUSY is reported before ILLEGAL. -/
theorem issueIllegal_eq (s : State) :
    issueIllegal s = raise (if s.inflight = none then .illegal else .busy) s := by
  unfold issueIllegal State.busy
  cases s.inflight <;> simp

/-! ### issue -/

theorem issue_busy {i : Instr} {r : Option ErrCode} {s : State} (h : s.inflight ≠ none) :
    issue i r s = raise .busy s := by
  have : s.busy = true := by simpa [State.busy, Option.isSome_iff_ne_none] using h
  simp [issue, this]

theorem issue_blocked {i : Instr} {r : Option ErrCode} {s : State} (h : s.inflight = none) (he : s.errcode ≠ .noError)
    (hi : acceptedInError i = false) : issue i r s = s := by
  simp [issue, State.busy, State.err, h, he, hi]

theorem issue_rejected {i : Instr} {c : ErrCode} {s : State} (h : s.inflight = none)
    (he : s.errcode = .noError ∨ acceptedInError i = true) : issue i (some c) s = raise c s := by
  rcases he with he | he <;> simp [issue, State.busy, State.err, h, he]

theorem issue_accepted {i : Instr} {s : State} (h : s.inflight = none)
    (he : s.errcode = .noError ∨ acceptedInError i = true) : issue i none s = accept i s := by
  rcases he with he | he <;> simp [issue, State.busy, State.err, h, he]

/-- Everything `issue` can do. -/
theorem issue_cases (i : Instr) (r : Option ErrCode) (s : State) :
    (s.inflight ≠ none ∧ issue i r s = raise .busy s) ∨
    (s.inflight = none ∧ s.errcode ≠ .noError ∧ acceptedInError i = false ∧ issue i r s = s) ∨
    (s.inflight = none ∧ (s.errcode = .noError ∨ acceptedInError i = true) ∧
      ((∃ c, r = some c ∧ issue i r s = raise c s) ∨ (r = none ∧ issue i r s = accept i s))) := by
  by_cases h : s.inflight = none
  · by_cases he : s.errcode = .noError ∨ acceptedInError i = true
    · refine .inr (.inr ⟨h, he, ?_⟩)
      cases r with
      | none => exact .inr ⟨rfl, issue_accepted h he⟩
      | some c => exact .inl ⟨c, rfl, issue_rejected h he⟩
    · simp only [not_or, Bool.not_eq_true] at he
      exact .inr (.inl ⟨h, he.1, he.2, issue_blocked h he.1 he.2⟩)
  · exact .inl ⟨h, issue_busy h⟩

/-- The commands accepted while ERR = 1 have no check of their own (R190). -/
theorem checkOf_acceptedInError {i : Instr} (h : acceptedInError i = true) (s : State) : checkOf i s = none := by
  cases i <;> first | rfl | cases h

/-- The registers a command's checks read. -/
theorem checkOf_congr (i : Instr) {s t : State} (h1 : s.phase = t.phase) (h2 : s.hvalid = t.hvalid)
    (h3 : s.lena = t.lena) (h4 : s.lenc = t.lenc) (h5 : s.armed = t.armed) (h6 : s.rem = t.rem) :
    checkOf i s = checkOf i t := by
  cases i <;>
    simp only [checkOf, checkGhSeth, checkGhInit, checkGhAad, checkGhCt, checkGhFinal, checkCtLen, checkCtFeed,
      h1, h2, h3, h4, h5, h6]

/-- What issuing a command leaves: everything but ERRCODE and the slot. -/
theorem issue_keeps (i : Instr) (r : Option ErrCode) (s : State) :
    issue i r s = { s with errcode := (issue i r s).errcode, inflight := (issue i r s).inflight } := by
  rcases issue_cases i r s with ⟨_, h⟩ | ⟨_, _, _, h⟩ | ⟨_, _, ⟨c, _, h⟩ | ⟨_, h⟩⟩ <;> rw [h]
  · rw [raise_eq]
  · rw [raise_eq]
  · unfold accept; split <;> rfl

/-! ### finish -/

theorem finish_inflight {i : Instr} {e : Block → Block → State → State} {a b : Block} {s : State}
    (h : s.inflight = some ⟨i, a, b⟩) : finish i e s = freeSlot (e a b s) := by
  simp [finish, h]

theorem finish_other {i : Instr} {e : Block → Block → State → State} {s : State}
    (h : ∀ f, s.inflight = some f → f.instr ≠ i) : finish i e s = s := by
  unfold finish
  split
  · next f hf => simp [h f hf]
  · rfl

/-! ### effects: what no effect at completion touches -/

@[simp] theorem effectOf_errcode (i : Instr) (a b : Block) (s : State) :
    (effectOf i a b s).errcode = s.errcode := by cases i <;> rfl

@[simp] theorem effectOf_inflight (i : Instr) (a b : Block) (s : State) :
    (effectOf i a b s).inflight = s.inflight := by cases i <;> rfl

@[simp] theorem effectOf_agenda (i : Instr) (a b : Block) (s : State) :
    (effectOf i a b s).agenda = s.agenda := by cases i <;> rfl

@[simp] theorem effectOf_turn (i : Instr) (a b : Block) (s : State) :
    (effectOf i a b s).turn = s.turn := by cases i <;> rfl

@[simp] theorem effectOf_rdata (i : Instr) (a b : Block) (s : State) :
    (effectOf i a b s).rdata = s.rdata := by cases i <;> rfl

/-! ### the agents' steps -/

theorem issueWord_ok {w : Word} {i : Instr} (h : decode w = .ok i) (s : State) :
    issueWord w s = .next (issue i (checkOf i s) (actAs .host s)) := by
  have : checkOf i (actAs .host s) = checkOf i s := by cases i <;> rfl
  simp only [issueWord, h]
  rw [exec_host i rfl, this]

theorem issueWord_illegal {w : Word} {e : DecodeError} (h : decode w = .error e) (s : State) :
    issueWord w s = .next (issueIllegal (actAs .host s)) := by
  simp [issueWord, h]

theorem complete_idle {s : State} (h : s.inflight = none) : complete s = .next s := by
  simp [complete, h]

theorem complete_inflight {s : State} {f : Inflight} (h : s.inflight = some f) :
    complete s = .next (freeSlot (effectOf f.instr f.a f.b (actAs .engine s))) := by
  simp only [complete, h]
  rw [exec_engine f.instr rfl, finish_inflight (a := f.a) (b := f.b) (by simp [h])]

theorem hostWrite_cmd {off : Offset} (h : regAt off = .cmd) (v : Word) (s : State) :
    hostWrite off v s = issueWord v s := by
  simp [hostWrite, h]

theorem hostWrite_other {off : Offset} (h : regAt off ≠ .cmd) (v : Word) (s : State) :
    hostWrite off v s = .next (writeOperand (regAt off) v s) := by
  simp [hostWrite, h]

end Sys2Proof.Machine
end

