-- ==== Sys2Proof/Laws/Field.lean ====
section
/-! SUPPORT. Blocks as polynomials: how each operation of the multiplier (40_gf128.md R104) acts on the element a block
stands for (R100, R101). -/

namespace Sys2Proof.Reference

open Sys2Proof.Machine
open Polynomial

theorem elem_coeff (v : Block) (i : Nat) : (elem v).coeff i = if i < 128 ∧ v.getLsbD (127 - i) then 1 else 0 := by
  unfold elem
  rw [Polynomial.finsetSum_coeff]
  have : ∀ j, (if v.getLsbD (127 - j) then (X : (ZMod 2)[X]) ^ j else 0).coeff i
      = if j = i then (if v.getLsbD (127 - i) then 1 else 0) else 0 := by
    intro j
    by_cases hj : j = i
    · subst hj; split <;> simp
    · rw [if_neg hj]
      split
      · rw [coeff_X_pow, if_neg (Ne.symm hj)]
      · simp
  simp only [this, Finset.sum_ite_eq', Finset.mem_range]
  by_cases h : i < 128 <;> simp [h]

theorem elem_injective {v w : Block} (h : elem v = elem w) : v = w := by
  apply BitVec.eq_of_getLsbD_eq
  intro i hi
  have := congrArg (fun p => p.coeff (127 - i)) h
  simp only [elem_coeff] at this
  rw [show 127 - (127 - i) = i by omega] at this
  have h1 : 127 - i < 128 := by omega
  simp only [h1, true_and] at this
  by_cases hv : v.getLsbD i <;> by_cases hw : w.getLsbD i <;> simp_all

theorem elem_zero : elem 0 = 0 := by
  ext i; simp [elem_coeff]

theorem elem_xor (v w : Block) : elem (v ^^^ w) = elem v + elem w := by
  ext i
  simp only [elem_coeff, coeff_add, BitVec.getLsbD_xor]
  by_cases h : i < 128
  · cases v.getLsbD (127 - i) <;> cases w.getLsbD (127 - i) <;> simp [h]
    decide
  · simp [h]

theorem elem_degree (v : Block) : (elem v).degree < 128 := by
  refine (Polynomial.degree_lt_iff_coeff_zero (elem v) 128).2 ?_
  intro m hm
  rw [elem_coeff, if_neg]
  omega

theorem fieldPoly_eq : fieldPoly = X ^ 128 + (X ^ 7 + X ^ 2 + X + 1) := by unfold fieldPoly; ring

theorem tail_degree : (X ^ 7 + X ^ 2 + X + 1 : (ZMod 2)[X]).degree < 128 := by
  have : (X ^ 7 + X ^ 2 + X + 1 : (ZMod 2)[X]).degree ≤ 7 := by compute_degree
  exact lt_of_le_of_lt this (by decide)

theorem fieldPoly_monic : fieldPoly.Monic := by
  rw [fieldPoly_eq]; exact monic_X_pow_add (by exact_mod_cast tail_degree)

theorem fieldPoly_degree : fieldPoly.degree = 128 := by
  rw [fieldPoly_eq, degree_add_eq_left_of_degree_lt]
  · simp
  · simpa using tail_degree

theorem elem_reduction : elem reduction = X ^ 7 + X ^ 2 + X + 1 := by
  ext i
  simp only [elem_coeff, reduction, coeff_add, coeff_X_pow, coeff_X, coeff_one]
  by_cases h : i < 128
  · interval_cases i <;> simp
  · have : i ≠ 7 ∧ i ≠ 2 ∧ 1 ≠ i ∧ i ≠ 0 := by omega
    simp [h, this]

theorem elem_shift (v : Block) : X * elem v = elem (v >>> 1) + if v.getLsbD 0 then X ^ 128 else 0 := by
  have hs : ∀ j, ((if v.getLsbD 0 then X ^ 128 else 0 : (ZMod 2)[X])).coeff j =
      if j = 128 ∧ v.getLsbD 0 then 1 else 0 := by
    intro j
    by_cases h : v.getLsbD 0 = true
    · rw [if_pos h, coeff_X_pow]; simp only [h, and_true]
    · rw [if_neg h]; simp only [h, and_false, if_false, coeff_zero, Bool.false_eq_true]
  ext i
  rw [coeff_add, hs]
  cases i with
  | zero => simp [elem_coeff]
  | succ i =>
    rw [coeff_X_mul]
    simp only [elem_coeff, BitVec.getLsbD_ushiftRight]
    rcases Nat.lt_trichotomy i 127 with h | h | h
    · rw [show 1 + (127 - (i + 1)) = 127 - i by omega]
      simp [show i < 128 by omega, show i + 1 < 128 by omega, show i ≠ 127 by omega]
    · subst h; simp
    · simp [show ¬ i < 128 by omega, show ¬ i + 1 < 128 by omega, show i ≠ 127 by omega]

theorem elem_reduced (v : Block) : elem v %ₘ fieldPoly = elem v :=
  (modByMonic_eq_self_iff fieldPoly_monic).2 (by rw [fieldPoly_degree]; exact elem_degree v)

theorem elem_mulX (v : Block) : elem (mulX v) = (X * elem v) %ₘ fieldPoly := by
  have hd : ∀ w : Block, elem w %ₘ fieldPoly = elem w := fun w =>
    (modByMonic_eq_self_iff fieldPoly_monic).2 (by rw [fieldPoly_degree]; exact elem_degree w)
  rw [elem_shift]
  unfold mulX
  split
  · rw [elem_xor, elem_reduction]
    have : (X ^ 128 : (ZMod 2)[X]) %ₘ fieldPoly = X ^ 7 + X ^ 2 + X + 1 := by
      have hx : (X ^ 128 : (ZMod 2)[X]) = (X ^ 7 + X ^ 2 + X + 1) + fieldPoly * 1 := by
        rw [fieldPoly_eq]
        have h2 : ∀ p : (ZMod 2)[X], p + p = 0 := fun p => CharTwo.add_self_eq_zero p
        linear_combination - (h2 (X ^ 7 + X ^ 2 + X + 1))
      rw [hx, add_modByMonic, mul_comm fieldPoly, mul_self_modByMonic fieldPoly_monic, add_zero]
      exact (modByMonic_eq_self_iff fieldPoly_monic).2 (by rw [fieldPoly_degree]; exact tail_degree)
    rw [add_modByMonic, hd, this]
  · rw [add_zero, hd]

theorem mul_reduced (p q : (ZMod 2)[X]) : (p * (q %ₘ fieldPoly)) %ₘ fieldPoly = (p * q) %ₘ fieldPoly := by
  have hm : (q %ₘ fieldPoly) %ₘ fieldPoly = q %ₘ fieldPoly :=
    (modByMonic_eq_self_iff fieldPoly_monic).2 (degree_modByMonic_lt q fieldPoly_monic)
  rw [mul_modByMonic, hm, ← mul_modByMonic]

theorem elem_mulXPow (b : Block) (i : Nat) : elem (mulXPow b i) = (X ^ i * elem b) %ₘ fieldPoly := by
  induction i with
  | zero =>
    rw [pow_zero, one_mul, mulXPow]
    exact ((modByMonic_eq_self_iff fieldPoly_monic).2 (by rw [fieldPoly_degree]; exact elem_degree b)).symm
  | succ i ih =>
    rw [mulXPow, elem_mulX, ih, mul_reduced, pow_succ', mul_assoc]

theorem elem_gfmulAcc (a b : Block) (k : Nat) : elem (gfmulAcc a b k) =
    ((∑ i ∈ Finset.range k, if a.getLsbD (127 - i) then X ^ i else 0) * elem b) %ₘ fieldPoly := by
  induction k with
  | zero => rw [Finset.sum_range_zero, zero_mul, zero_modByMonic]; exact elem_zero
  | succ k ih =>
    rw [Finset.sum_range_succ, add_mul, add_modByMonic, ← ih, gfmulAcc]
    split
    · rw [elem_xor, elem_mulXPow]
    · simp

end Sys2Proof.Reference
end

