-- ==== Sys2Proof/Laws/Step.lean ====
section
/-! SUPPORT. Everything a step can do, said once: one inversion lemma over the events of the three agents. -/

namespace Sys2Proof.Machine

/-- The ways a step goes, each with the state it answers. -/
inductive StepTo (s : State) : State → Prop where
  /-- A host read (R62). -/
  | read (off : Offset) (rest : List Event) (ha : s.agenda = .access (.read off) :: rest) :
      StepTo s (readStep off (schedule rest s))
  /-- A host write that issues no command (R62, R64). -/
  | write (off : Offset) (v : Word) (rest : List Event) (ha : s.agenda = .access (.write off v) :: rest)
      (hr : regAt off ≠ .cmd) : StepTo s (writeOperand (regAt off) v (schedule rest s))
  /-- A write of an illegal word to CMD (R182). -/
  | illegal (off : Offset) (w : Word) (e : DecodeError) (rest : List Event)
      (ha : s.agenda = .access (.write off w) :: rest) (hr : regAt off = .cmd) (hd : decode w = .error e) :
      StepTo s (issueIllegal (actAs .host (schedule rest s)))
  /-- A write of a legal word to CMD (R190). -/
  | issue (off : Offset) (w : Word) (i : Instr) (rest : List Event)
      (ha : s.agenda = .access (.write off w) :: rest) (hr : regAt off = .cmd) (hd : decode w = .ok i) :
      StepTo s (issue i (checkOf i s) (actAs .host (schedule rest s)))
  /-- `Complete` for the command in flight (R191), scheduled or, with nothing scheduled, by fairness (R219). -/
  | complete (f : Inflight) (rest : List Event) (ha : s.agenda = .complete :: rest ∨ s.agenda = [] ∧ rest = [])
      (hf : s.inflight = some f) :
      StepTo s (freeSlot (effectOf f.instr f.a f.b (actAs .engine (schedule rest s))))
  /-- `Complete` not enabled, or nothing to do (R191, R212). -/
  | idle (rest : List Event) (ha : s.agenda = .complete :: rest ∨ s.agenda = [] ∧ rest = [])
      (hf : s.inflight = none) : StepTo s (schedule rest s)
  /-- A cycle of reset (R210). -/
  | reset (during : Option Access) (rest : List Event) (ha : s.agenda = .reset during :: rest) :
      StepTo s (resetStep during (schedule rest s))

theorem complete_to {s : State} {rest : List Event} (ha : s.agenda = .complete :: rest ∨ s.agenda = [] ∧ rest = []) :
    ∃ t, complete (schedule rest s) = .next t ∧ StepTo s t := by
  match hf : (schedule rest s).inflight with
  | none => exact ⟨_, complete_idle hf, .idle rest ha hf⟩
  | some f => exact ⟨_, complete_inflight hf, .complete f rest ha hf⟩

theorem checkOf_agenda (i : Instr) (s : State) (rest : List Event) :
    checkOf i (schedule rest s) = checkOf i s := by cases i <;> rfl

/-- A step answers a next state, and it goes one of the ways of `StepTo`. -/
theorem step_to (s : State) : ∃ t, step s = .next t ∧ StepTo s t := by
  unfold step runAgenda
  match ha : s.agenda with
  | [] =>
    have := complete_to (s := s) (rest := []) (.inr ⟨ha, rfl⟩)
    rwa [show schedule [] s = s by unfold schedule; rw [← ha]] at this
  | .complete :: rest => exact complete_to (.inl ha)
  | .reset d :: rest => exact ⟨_, rfl, .reset d rest ha⟩
  | .access (.read off) :: rest => exact ⟨_, rfl, .read off rest ha⟩
  | .access (.write off v) :: rest =>
    by_cases hr : regAt off = .cmd
    · cases hd : decode v with
      | error e =>
        exact ⟨_, by simp only [runEvent]; rw [hostWrite_cmd hr, issueWord_illegal hd], .illegal off v e rest ha hr hd⟩
      | ok i =>
        refine ⟨_, ?_, .issue off v i rest ha hr hd⟩
        simp only [runEvent]
        rw [hostWrite_cmd hr, issueWord_ok hd, checkOf_agenda]
    · exact ⟨_, hostWrite_other hr v _, .write off v rest ha hr⟩

theorem step_inv {s t : State} (h : step s = .next t) : StepTo s t := by
  obtain ⟨u, hu, hs⟩ := step_to s
  rw [h] at hu
  cases hu
  exact hs

theorem step_complete {s : State} {rest : List Event}
    (h : s.agenda = .complete :: rest ∨ (s.agenda = [] ∧ rest = [])) : step s = complete (schedule rest s) := by
  unfold step runAgenda
  rcases h with h | ⟨h, rfl⟩
  · rw [h]; rfl
  · rw [h]; show complete s = _; congr 1; unfold schedule; rw [← h]

theorem step_cmd {s : State} {off : Offset} {w : Word} {rest : List Event}
    (ha : s.agenda = .access (.write off w) :: rest) (ho : regAt off = .cmd) :
    step s = issueWord w (schedule rest s) := by
  unfold step runAgenda
  rw [ha]
  exact hostWrite_cmd ho _ _

/-- What a read depends on. -/
theorem hostRead_congr {s t : State} (off : Offset) (h1 : s.opa = t.opa) (h2 : s.opb = t.opb) (h3 : s.res = t.res)
    (h4 : s.y = t.y) (h5 : s.lena = t.lena) (h6 : s.lenc = t.lenc) (h7 : s.status = t.status) :
    hostRead off s = hostRead off t := by
  unfold hostRead readReg; rw [h1, h2, h3, h4, h5, h6, h7]

/-- A step takes the first event, if there is one. -/
theorem step_agenda {s t : State} (h : step s = .next t) : t.agenda = s.agenda.tail := by
  cases step_inv h with
  | read off rest ha => rw [ha]; rfl
  | write off v rest ha => rw [ha]; simp
  | illegal off w e rest ha => rw [ha, issueIllegal_eq]; simp
  | issue off w i rest ha => rw [ha, issue_keeps]; rfl
  | complete f rest ha => rcases ha with ha | ⟨ha, rfl⟩ <;> rw [ha] <;> simp
  | idle rest ha => rcases ha with ha | ⟨ha, rfl⟩ <;> rw [ha] <;> rfl
  | reset d rest ha => rw [ha]; rcases d with _ | ⟨_ | _⟩ <;> rfl

/-! ### the end of a run -/

/-- Both conditions of R220 as one test. -/
theorem runEnded_iff (s : State) : runEnded s = true ↔ (∀ e ∈ s.agenda, isHostStep e = false) ∧ s.inflight = none := by
  simp [runEnded, hostDone, State.busy]

theorem runToEnd_ended {s : State} (h : runEnded s = true) (fuel : Nat) : runToEnd fuel s = s := by
  cases fuel <;> simp [runToEnd, h]

theorem runToEnd_step {s t : State} (h : runEnded s = false) (hs : step s = .next t) (fuel : Nat) :
    runToEnd (fuel + 1) s = runToEnd fuel t := by
  simp [runToEnd, h, hs]

/-! ### runs of several steps -/

theorem run_zero (s : State) : Host.Core.run Sys2Proof.core 0 s = .next s := rfl

theorem run_succ {s t : State} (h : step s = .next t) (k : Nat) :
    Host.Core.run Sys2Proof.core (k + 1) s = Host.Core.run Sys2Proof.core k t := by
  have h' : Sys2Proof.core.step s = .next t := h
  simp only [Host.Core.run, h']

theorem run_add {s t : State} {m : Nat} (h : Host.Core.run Sys2Proof.core m s = .next t) (k : Nat) :
    Host.Core.run Sys2Proof.core (m + k) s = Host.Core.run Sys2Proof.core k t := by
  induction m generalizing s with
  | zero => cases h; rw [Nat.zero_add]
  | succ m ih =>
    obtain ⟨u, hu, -⟩ := step_to s
    rw [run_succ hu] at h
    rw [Nat.succ_add, run_succ hu, ih h]

end Sys2Proof.Machine
end

