-- ==== Sys2Proof/Laws/Window.lean ====
section
/-! SUPPORT. The words of a 128-bit register and the register map (20_memory.md R61 to R65). -/

namespace Sys2Proof.Machine

/-- A bit of a block after one of its words is written. -/
theorem setWord_getLsbD (x : Block) (k : Fin 4) (v : Word) (i : Nat) :
    (setWord x k v).getLsbD i =
      if 96 - 32 * k.val ≤ i ∧ i < 128 - 32 * k.val then v.getLsbD (i - (96 - 32 * k.val)) else x.getLsbD i := by
  have hm : ∀ j, (0xFFFFFFFF#128).getLsbD j = decide (j < 32) := by
    intro j
    rw [show 0xFFFFFFFF#128 = BitVec.ofNat 128 (2 ^ 32 - 1) by decide, BitVec.getLsbD_ofNat,
      Nat.testBit_two_pow_sub_one]
    by_cases hj : j < 32
    · simp [hj, show j < 128 by omega]
    · simp [hj]
  simp only [setWord, BitVec.getLsbD_or, BitVec.getLsbD_and, BitVec.getLsbD_not, BitVec.getLsbD_shiftLeft,
    BitVec.truncate_eq_setWidth, BitVec.getLsbD_setWidth, hm]
  have hk := k.isLt
  by_cases h1 : i < 128
  · by_cases h2 : 96 - 32 * k.val ≤ i
    · by_cases h3 : i < 128 - 32 * k.val
      · simp [h1, h2, h3]
        have : i - (96 - 32 * k.val) < 32 := by omega
        simp [this, show ¬ i < 96 - 32 * k.val by omega, show i - (96 - 32 * k.val) < 128 by omega]
      · have : ¬ i - (96 - 32 * k.val) < 32 := by omega
        simp [h1, h3, this, BitVec.getLsbD_of_ge v _ (by omega : 32 ≤ i - (96 - 32 * k.val))]
    · simp [h1, h2, show i < 96 - 32 * k.val by omega]
  · have : ¬ i < 128 - 32 * k.val := by omega
    simp [h1, this, BitVec.getLsbD_of_ge x i (by omega)]

theorem getWord_setWord_same (x : Block) (k : Fin 4) (v : Word) : getWord (setWord x k v) k = v := by
  apply BitVec.eq_of_getLsbD_eq
  intro i hi
  have hk := k.isLt
  simp only [getWord, BitVec.getLsbD_extractLsb', setWord_getLsbD, hi, decide_true, Bool.true_and]
  rw [if_pos (by omega)]
  congr 1
  omega

theorem getWord_setWord_other (x : Block) {j k : Fin 4} (v : Word) (h : j ≠ k) :
    getWord (setWord x k v) j = getWord x j := by
  apply BitVec.eq_of_getLsbD_eq
  intro i hi
  have hk := k.isLt
  have hj := j.isLt
  have hne : j.val ≠ k.val := fun e => h (Fin.ext e)
  simp only [getWord, BitVec.getLsbD_extractLsb', setWord_getLsbD, hi, decide_true, Bool.true_and]
  rw [if_neg (by omega)]

/-- A block is its four words. -/
theorem block_ext {x y : Block} (h : ∀ k, getWord x k = getWord y k) : x = y := by
  apply BitVec.eq_of_getLsbD_eq
  intro i hi
  have hk : 3 - i / 32 < 4 := by omega
  have := congrArg (BitVec.getLsbD · (i % 32)) (h ⟨3 - i / 32, hk⟩)
  simp only [getWord, BitVec.getLsbD_extractLsb', Nat.mod_lt i (by decide : 0 < 32), decide_true, Bool.true_and] at this
  rwa [show 96 - 32 * (3 - i / 32) + i % 32 = i by omega] at this

theorem regAt_cmdOffset : regAt cmdOffset = .cmd := by decide

/-- CMD is the word at offset 0x04 and no other (R61). -/
theorem regAt_eq_cmd (off : Offset) : regAt off = .cmd ↔ off &&& 0xFC#8 = 0x04#8 := by
  revert off; decide +kernel

/-- `off[1:0]` is ignored (R63). -/
theorem regAt_wordOffset (off : Offset) : regAt (wordOffset off) = regAt off := by
  revert off; decide +kernel

theorem regAt_opa (k : Fin 4) : regAt (0x10#8 + BitVec.ofNat 8 (4 * k.val)) = .opa k := by revert k; decide

theorem regAt_opb (k : Fin 4) : regAt (0x20#8 + BitVec.ofNat 8 (4 * k.val)) = .opb k := by revert k; decide

end Sys2Proof.Machine
end

