-- ==== Sys2Proof/Laws/Run.lean ====
section
/-! SUPPORT. Access sequences: a scheduled sequence runs to a state with every CMD write accepted, and sequences
compose (41_ghash.md R129, 42_ctcompare.md R156). -/

namespace Sys2Proof.Reference

open Sys2Proof.Machine

theorem stepped_eq {s t : State} (h : step s = .next t) : stepped s = t := by simp [stepped, h]

theorem allAccepted_add {m k : Nat} {s t : State} (h : Host.Core.run Sys2Proof.core m s = .next t)
    (ha : allAccepted m s) (hk : allAccepted k t) : allAccepted (m + k) s := by
  induction m generalizing s with
  | zero => cases h; rwa [Nat.zero_add]
  | succ m ih =>
    obtain ⟨u, hu, -⟩ := step_to s
    rw [run_succ hu] at h
    rw [Nat.succ_add]
    refine ⟨ha.1, ?_⟩
    have := ha.2
    rw [stepped_eq hu] at this ⊢
    exact ih h this

/-- Scheduled first, the events `es` take `s` to `t`, whatever is scheduled after them, with every CMD write
accepted. -/
def Goes (es : List Event) (s t : State) : Prop :=
  ∀ rest, Host.Core.run Sys2Proof.core es.length (schedule (es ++ rest) s) = .next (schedule rest t) ∧
    allAccepted es.length (schedule (es ++ rest) s)

theorem goes_nil (s : State) : Goes [] s s := fun _ => ⟨rfl, trivial⟩

theorem goes_append {es fs : List Event} {s t u : State} (h : Goes es s t) (g : Goes fs t u) :
    Goes (es ++ fs) s u := by
  intro rest
  obtain ⟨h1, h2⟩ := h (fs ++ rest)
  obtain ⟨g1, g2⟩ := g rest
  rw [List.append_assoc, List.length_append]
  exact ⟨by rw [run_add h1, g1], allAccepted_add h1 h2 g2⟩

theorem goes_write {off : Offset} (h : regAt off ≠ .cmd) (v : Word) (s : State) :
    Goes [.access (.write off v)] s (writeOperand (regAt off) v s) := by
  intro rest
  have e : step (schedule ([.access (.write off v)] ++ rest) s) =
      .next (writeOperand (regAt off) v (schedule rest s)) := hostWrite_other h v (schedule rest s)
  constructor
  · show Host.Core.run Sys2Proof.core 1 _ = _
    rw [run_succ e, run_zero]
    congr 1
    cases regAt off <;> rfl
  · refine ⟨?_, trivial⟩
    rintro w ⟨off', rest', ha, ho⟩
    cases ha
    exact absurd ((regAt_eq_cmd off).2 ho) h

/-- What is scheduled, and whose turn it is, do not enter an effect. -/
theorem effectOf_transport (i : Instr) (s : State) (rest : List Event) :
    freeSlot (effectOf i s.opa s.opb
        (actAs .engine (schedule rest (latch i (actAs .host (schedule (.complete :: rest) s)))))) =
      schedule rest (freeSlot (effectOf i s.opa s.opb (actAs .engine s))) := by
  cases s
  cases i with
  | ghAad n => simp only [effectOf, effectGhAad, freeSlot, actAs, schedule, latch, absorb]
  | ghCt n => simp only [effectOf, effectGhCt, freeSlot, actAs, schedule, latch, absorb]
  | ghFinal => simp only [effectOf, effectGhFinal, freeSlot, actAs, schedule, latch, absorb]
  | gfMul => simp only [effectOf, effectGfMul, freeSlot, actAs, schedule, latch]
  | _ => rfl

/-- A command that passes its checks, issued and then completed. -/
theorem goes_perform {i : Instr} {s : State} (hd : decode (encode i) = .ok i) (hf : s.inflight = none)
    (he : s.errcode = .noError) (hc : checkOf i s = none) (hcl : clearsError i = false) :
    Goes (perform i) s (freeSlot (effectOf i s.opa s.opb (actAs .engine s))) := by
  intro rest
  have hk : checkOf i (schedule (.complete :: rest) s) = none := by rw [checkOf_agenda, hc]
  have e1 : step (schedule (perform i ++ rest) s) =
      .next (latch i (actAs .host (schedule (.complete :: rest) s))) := by
    show hostWrite cmdOffset (encode i) (schedule (.complete :: rest) s) = _
    rw [hostWrite_cmd regAt_cmdOffset, issueWord_ok hd, hk,
      issue_accepted (s := actAs .host (schedule (.complete :: rest) s)) hf (.inl he)]
    simp [accept, hcl]
  have e2 := step_complete (s := latch i (actAs .host (schedule (.complete :: rest) s))) (rest := rest) (.inl rfl)
  rw [complete_inflight (f := ⟨i, s.opa, s.opb⟩) (by simp)] at e2
  constructor
  · show Host.Core.run Sys2Proof.core 2 _ = _
    rw [run_succ e1, run_succ e2, run_zero]
    congr 1
    exact effectOf_transport i s rest
  · refine ⟨fun w _ => ⟨hf, ?_⟩, ?_, trivial⟩
    · rw [stepped_eq e1]; simp
    · rw [stepped_eq e1]
      rintro w ⟨off', rest', ha, ho⟩
      simp at ha

/-- Four word writes give a 128-bit register its value (R65). -/
theorem setWord_four (x v : Block) :
    setWord (setWord (setWord (setWord x 0 (v.extractLsb' 96 32)) 1 (v.extractLsb' 64 32)) 2 (v.extractLsb' 32 32)) 3
      (v.extractLsb' 0 32) = v := by
  apply block_ext
  intro k
  match k with
  | 0 => rw [getWord_setWord_other _ _ (by decide), getWord_setWord_other _ _ (by decide),
      getWord_setWord_other _ _ (by decide), getWord_setWord_same]; rfl
  | 1 => rw [getWord_setWord_other _ _ (by decide), getWord_setWord_other _ _ (by decide), getWord_setWord_same]; rfl
  | 2 => rw [getWord_setWord_other _ _ (by decide), getWord_setWord_same]; rfl
  | 3 => rw [getWord_setWord_same]; rfl

theorem goes_writeBlock_opa (v : Block) (s : State) : Goes (writeBlock 0x10 v) s { s with opa := v } := by
  have h := goes_append (goes_write (off := 0x10) (by decide) (v.extractLsb' 96 32) s)
    (goes_append (goes_write (off := 0x10 + 4) (by decide) (v.extractLsb' 64 32) _)
      (goes_append (goes_write (off := 0x10 + 8) (by decide) (v.extractLsb' 32 32) _)
        (goes_write (off := 0x10 + 12) (by decide) (v.extractLsb' 0 32) _)))
  have e := congrArg (fun x => ({ s with opa := x } : State)) (setWord_four s.opa v)
  rw [← e]
  exact h

theorem goes_writeBlock_opb (v : Block) (s : State) : Goes (writeBlock 0x20 v) s { s with opb := v } := by
  have h := goes_append (goes_write (off := 0x20) (by decide) (v.extractLsb' 96 32) s)
    (goes_append (goes_write (off := 0x20 + 4) (by decide) (v.extractLsb' 64 32) _)
      (goes_append (goes_write (off := 0x20 + 8) (by decide) (v.extractLsb' 32 32) _)
        (goes_write (off := 0x20 + 12) (by decide) (v.extractLsb' 0 32) _)))
  have e := congrArg (fun x => ({ s with opb := x } : State)) (setWord_four s.opb v)
  rw [← e]
  exact h

theorem lengthOperand_setWord (x : Block) (v : Length) :
    lengthOperand (setWord (setWord x 2 (v.extractLsb' 32 32)) 3 (v.extractLsb' 0 32)) = v := by
  apply BitVec.eq_of_getLsbD_eq
  intro i hi
  simp only [lengthOperand, BitVec.getLsbD_extractLsb', hi, decide_true, Bool.true_and, Nat.zero_add, setWord_getLsbD]
  by_cases h : i < 32
  · simp [h]
  · simp [h, show i < 64 by omega, show 32 ≤ i by omega, show i - 32 < 32 by omega]

theorem goes_writeLength_opa (v : Length) (s : State) :
    ∃ x, Goes (writeLength 0x10 v) s { s with opa := x } ∧ lengthOperand x = v :=
  ⟨_, goes_append (goes_write (off := 0x18) (by decide) (v.extractLsb' 32 32) s)
    (goes_write (off := 0x1C) (by decide) (v.extractLsb' 0 32) _), lengthOperand_setWord _ _⟩

theorem goes_writeLength_opb (v : Length) (s : State) :
    ∃ x, Goes (writeLength 0x20 v) s { s with opb := x } ∧ lengthOperand x = v :=
  ⟨_, goes_append (goes_write (off := 0x28) (by decide) (v.extractLsb' 32 32) s)
    (goes_write (off := 0x2C) (by decide) (v.extractLsb' 0 32) _), lengthOperand_setWord _ _⟩

end Sys2Proof.Reference
end

