-- ==== Sys2Proof/WellFormed.lean ====
section
/-! DEFINITION. Well-formed commands: the byte count of a command that takes one is legal (30_encoding.md R82: "Only
`1 <= N <= 16` is legal"). An ill-formed command still has an encoding and still decodes (R83); executing it is
rejected with BADCOUNT (60_exceptions.md R183). Every other field is well-formed by its type. -/

namespace Sys2Proof

/-- The counts R82 calls legal. -/
def Count.legal (n : Count) : Bool := 1 ≤ n.toNat && n.toNat ≤ 16

/-- R82: the N field of a counted command is legal; a command without a count has no field to check. -/
def Instr.wf : Instr → Bool
  | .ghAad n => Count.legal n
  | .ghCt n => Count.legal n
  | .ctFeed n => Count.legal n
  | .nop | .gfMul | .gfAdd | .zero | .clrErr | .ghSeth | .ghInit | .ghFinal | .ctClear | .ctLen => true

end Sys2Proof
end

