-- ==== Sys2Proof/Tests/Slice0.lean ====
section
/-! SUPPORT. Tests of the model's own author. Expected values come from the spec: the opcode map (30_encoding.md R83),
the examples of the command rules, and the vectors of 95_test_vectors.md, named in each comment. The theorems
`witness_…` show, for each statement with hypotheses, concrete states and operands that meet all of them. -/

namespace Sys2Proof.Tests

open Sys2Proof Sys2Proof.Machine Sys2Proof.Reference

/-! ### Well-formedness (R82) -/

theorem test_wf_aad_zero_refused : Instr.wf (.ghAad 0) = false := by decide
theorem test_wf_aad_seventeen_refused : Instr.wf (.ghAad 17) = false := by decide
theorem test_wf_ct_zero_refused : Instr.wf (.ghCt 0) = false := by decide
theorem test_wf_ct_thirty_one_refused : Instr.wf (.ghCt 31) = false := by decide
theorem test_wf_feed_zero_refused : Instr.wf (.ctFeed 0) = false := by decide
theorem test_wf_feed_seventeen_refused : Instr.wf (.ctFeed 17) = false := by decide
theorem test_wf_bounds_accepted :
    Instr.wf (.ghAad 1) ∧ Instr.wf (.ghAad 16) ∧ Instr.wf (.ghCt 1) ∧ Instr.wf (.ghCt 16) ∧ Instr.wf (.ctFeed 1) ∧
    Instr.wf (.ctFeed 16) ∧ Instr.wf .gfMul := by decide

/-! ### Decoding: the word of each row of R83, bit 31 first: RSVD (19 bits), N (5 bits), OPC (8 bits) -/

theorem test_decode_nop : decode 0b0000000000000000000_00000_00000000#32 = .ok .nop := by rfl
theorem test_decode_gfMul : decode 0b0000000000000000000_00000_00000001#32 = .ok .gfMul := by rfl
theorem test_decode_gfAdd : decode 0b0000000000000000000_00000_00000010#32 = .ok .gfAdd := by rfl
theorem test_decode_zero : decode 0b0000000000000000000_00000_00001110#32 = .ok .zero := by rfl
theorem test_decode_clrErr : decode 0b0000000000000000000_00000_00001111#32 = .ok .clrErr := by rfl
theorem test_decode_ghSeth : decode 0b0000000000000000000_00000_00010000#32 = .ok .ghSeth := by rfl
theorem test_decode_ghInit : decode 0b0000000000000000000_00000_00010001#32 = .ok .ghInit := by rfl
theorem test_decode_ghAad : decode 0b0000000000000000000_00100_00010010#32 = .ok (.ghAad 4) := by rfl
theorem test_decode_ghCt : decode 0b0000000000000000000_01100_00010011#32 = .ok (.ghCt 12) := by rfl
theorem test_decode_ghFinal : decode 0b0000000000000000000_00000_00010100#32 = .ok .ghFinal := by rfl
theorem test_decode_ctClear : decode 0b0000000000000000000_00000_00100000#32 = .ok .ctClear := by rfl
theorem test_decode_ctLen : decode 0b0000000000000000000_00000_00100001#32 = .ok .ctLen := by rfl
theorem test_decode_ctFeed : decode 0b0000000000000000000_10000_00100010#32 = .ok (.ctFeed 16) := by rfl

/-- V-E1 to V-E5: unassigned opcodes. -/
theorem test_decode_unassigned :
    decode 0x00000003#32 = .error .unassignedOpcode ∧ decode 0x00000015#32 = .error .unassignedOpcode ∧
    decode 0x00000023#32 = .error .unassignedOpcode ∧ decode 0x0000000D#32 = .error .unassignedOpcode ∧
    decode 0x000000FF#32 = .error .unassignedOpcode := ⟨rfl, rfl, rfl, rfl, rfl⟩
/-- V-E6 and V-E7. -/
theorem test_decode_reserved_bits :
    decode 0x00002001#32 = .error .reservedBits ∧ decode 0x80000001#32 = .error .reservedBits := ⟨rfl, rfl⟩
/-- V-E8, V-E9 and the example of R170. -/
theorem test_decode_count_not_allowed :
    decode 0x00000101#32 = .error .countNotAllowed ∧ decode 0x0000010F#32 = .error .countNotAllowed ∧
    decode 0x00000100#32 = .error .countNotAllowed := ⟨rfl, rfl, rfl⟩
/-- V-E10 and V-E11: a count outside 1..16 still decodes. -/
theorem test_decode_bad_count :
    decode 0x00001F12#32 = .ok (.ghAad 31) ∧ decode 0x00000012#32 = .ok (.ghAad 0) := ⟨rfl, rfl⟩
/-- R83: the word of GH_CT with n = 12. -/
theorem test_encode_ghCt : encode (.ghCt 12) = 0x00000C13#32 := by decide

/-! ### Small states and what is looked at in the next one -/

/-- A field of the next state. -/
def see {α : Type} (f : State → α) : Host.Outcome State Fault Refusal → Option α
  | .next t => some (f t)
  | .fault _ => none
  | .refused _ => none

/-- `i` in flight with the latched operands `a` and `b`, in the engine's turn. -/
def flying (i : Instr) (a b : Block) (s : State) : State := { s with inflight := some ⟨i, a, b⟩, turn := .engine }

/-- The host's next access writes `w` to CMD. -/
def command (w : Word) (s : State) : State := { s with agenda := [.access (.write 0x04#8 w)] }

/-- A subkey loaded, in a phase. -/
def keyed (h : Block) (p : Phase) : State := { State.reset with h := h, hvalid := true, phase := p }

/-- The comparator armed with `r` bytes to feed. -/
def armed (r : Length) : State := { State.reset with armed := true, rem := r }

/-- The subkey of TC1 and TC2 (95_test_vectors.md section 1b). -/
def h2 : Block := 0x66e94bd4ef8a2c3b884cfa59ca342b2e#128
/-- The subkey of TC4 and TC5. -/
def h4 : Block := 0xb83b533708bf535d0aa6e52980d53b78#128
/-- The ciphertext block of TC2. -/
def c2 : Block := 0x0388dace60b6a392f328c2b971b2fe78#128
/-- The block X of section 3.4. -/
def x : Block := 0x8c7856e51da13f417143151a490332b6#128
/-- OPA of section 3.7. -/
def count128 : Block := 0x0123456789abcdeffedcba9876543210#128

/-! ### GF_MUL and GF_ADD (sections 3.1 and 3.2) -/

/-- V-M4: the highest degree product. -/
theorem test_gfMul_reduces :
    see State.res (exec .gfMul (flying .gfMul 1 1 State.reset)) = some 0xe6080000000000000000000000000003#128 := by
  decide +kernel
/-- V-M12. -/
theorem test_gfMul_general :
    see State.res (exec .gfMul (flying .gfMul count128 0xfedcba98765432100123456789abcdef#128 State.reset)) =
      some 0x4513a4573d6e59aadf586f9cf6a59261#128 := by decide +kernel
/-- V-M10, V-M11 and V-M7. -/
theorem test_gfmul_vectors :
    gfmul h2 c2 = 0x5e2ec746917062882c85b0685353deb7#128 ∧ gfmul c2 h2 = 0x5e2ec746917062882c85b0685353deb7#128 ∧
    gfmul (BitVec.allOnes 128) (BitVec.allOnes 128) = 0xf402aaaaaaaaaaaaaaaaaaaaaaaaaaaa#128 := by decide +kernel
/-- V-M2, V-M3, V-M6 and V-M9. -/
theorem test_gfmul_corners :
    gfmul 0x80000000000000000000000000000000#128 count128 = count128 ∧
    gfmul 0x40000000000000000000000000000000#128 1 = 0xe1000000000000000000000000000000#128 ∧
    gfmul 0x00000000000000008000000000000000#128 0x00000000000000008000000000000000#128 =
      0xe1000000000000000000000000000000#128 ∧
    gfmul 0xe1000000000000000000000000000000#128 0x40000000000000000000000000000000#128 =
      0x70800000000000000000000000000000#128 := by decide +kernel
/-- V-A1. -/
theorem test_gfAdd :
    see State.res (exec .gfAdd (flying .gfAdd count128 0xfedcba98765432100123456789abcdef#128 State.reset)) =
      some (BitVec.allOnes 128) := by decide
/-- V-A2. -/
theorem test_gfAdd_self :
    see State.res (exec .gfAdd (flying .gfAdd count128 count128 { State.reset with res := 7 })) = some 0 := by
  decide

/-! ### GHASH commands (section 3.3 and the examples of R124 to R128) -/

/-- The example of R124. -/
theorem test_ghSeth :
    see (fun t => (t.h, t.status)) (exec .ghSeth (flying .ghSeth h2 0 State.reset)) = some (h2, 0x00000100#32) := by
  decide
/-- V-G14: a new subkey at DONE leaves Y. -/
theorem test_ghSeth_done :
    see (fun t => (t.h, t.y, t.status))
      (exec .ghSeth (flying .ghSeth 0x80000000000000000000000000000000#128 0 { keyed h2 .done with y := 5 })) =
      some (0x80000000000000000000000000000000#128, 5, 0x00000B00#32) := by decide
/-- V-G13: GH_INIT abandons the message. -/
theorem test_ghInit :
    see (fun t => (t.y, t.lena, t.lenc, t.status))
      (exec .ghInit (flying .ghInit 0 0 { keyed h2 .ct with y := 9, lenc := 128 })) = some (0, 0, 0, 0x00000300#32) := by
  decide
/-- V-G9: no subkey. -/
theorem test_ghInit_noKey : see State.status (step (command 0x11 State.reset)) = some 0x00000042#32 := by
  decide
/-- The example of R126. -/
theorem test_ghAad :
    see (fun t => (t.y, t.lena, t.phase))
      (exec (.ghAad 16) (flying (.ghAad 16) 0xfeedfacedeadbeeffeedfacedeadbeef#128 0 (keyed h4 .aad))) =
      some (0xed56aaf8a72d67049fdb9228edba1322#128, 128, .aad) := by decide +kernel
/-- Program P2, step 7, with filler bytes that are not 0 (R121). -/
theorem test_ghAad_partial :
    see (fun t => (t.y, t.lena, t.phase))
      (exec (.ghAad 4) (flying (.ghAad 4) 0xabaddad2ffffffffffffffffffffffff#128 0
        { keyed h4 .aad with y := 0xed56aaf8a72d67049fdb9228edba1322#128, lena := 128 })) =
      some (0xcd47221ccef0554ee4bb044c88150352#128, 160, .aadp) := by decide
/-- The example of R127. -/
theorem test_ghCt :
    see (fun t => (t.y, t.lenc, t.phase)) (exec (.ghCt 16) (flying (.ghCt 16) c2 0 (keyed h2 .aad))) =
      some (0x5e2ec746917062882c85b0685353deb7#128, 128, .ct) := by decide +kernel
/-- V-G4: one byte, before GH_FINAL. -/
theorem test_ghCt_partial :
    see (fun t => (t.y, t.lenc, t.phase))
      (exec (.ghCt 1) (flying (.ghCt 1) 0xabffffffffffffffffffffffffffffff#128 0 (keyed h2 .aad))) =
      some (0x9e63fa2460f1391e4beaa177f0a6dbad#128, 8, .ctp) := by decide
/-- The example of R128 (V-G2). -/
theorem test_ghFinal :
    see (fun t => (t.y, t.status))
      (exec .ghFinal (flying .ghFinal 0 0
        { keyed h2 .ct with y := 0x5e2ec746917062882c85b0685353deb7#128, lenc := 128 })) =
      some (0xf38cbb1ad69223dcc3457ae5b6b0f885#128, 0x00000B00#32) := by decide
/-- The DONE row of the phase table. -/
theorem test_ghFinal_twice : see State.status (step (command 0x14 (keyed h2 .done))) = some 0x00000B32#32 := by
  decide
/-- V-G10 and V-G11: the bound of LENA. -/
theorem test_ghAad_bound :
    see State.status (step (command 0x1012 { keyed h2 .aad with lena := 0xFFFFFFFFFFFFFF80#64 })) =
      some 0x00000352#32 ∧
    see State.lena (exec (.ghAad 15) (flying (.ghAad 15) 0 0 { keyed h2 .aad with lena := 0xFFFFFFFFFFFFFF80#64 })) =
      some 0xFFFFFFFFFFFFFFF8#64 := by decide
/-- The phase table: GH_AAD at AADP and at CT, GH_CT at CTP, GH_SETH at AAD, and BADCOUNT before ORDER at IDLE. -/
theorem test_phase_table :
    see State.status (step (command 0x1012 (keyed h2 .aadp))) = some 0x00000532#32 ∧
    see State.status (step (command 0x412 (keyed h2 .ct))) = some 0x00000732#32 ∧
    see State.status (step (command 0x413 (keyed h2 .ctp))) = some 0x00000932#32 ∧
    see State.status (step (command 0x10 (keyed h2 .aad))) = some 0x00000332#32 ∧
    see State.status (step (command 0x12 (keyed h2 .idle))) = some 0x00000122#32 ∧
    see State.status (step (command 0x1112 (keyed h2 .done))) = some 0x00000B22#32 := by decide

/-! ### Comparator commands (section 3.4) -/

/-- V-CT13. -/
theorem test_ctClear : see State.status (exec .ctClear (flying .ctClear 0 0 (armed 0))) = some 0 := by decide
/-- V-CT12: bits 127:64 of the operands are ignored. -/
theorem test_ctLen :
    see (fun t => (t.lenmis, t.armed, t.rem))
      (exec .ctLen (flying .ctLen 0xdeadbeef000012340000000000000010#128 0x10 State.reset)) =
      some (false, true, 16) := by decide
/-- V-CT6: two empty sequences are equal; V-CT5: lengths 16 and 15. -/
theorem test_ctLen_status :
    see State.status (exec .ctLen (flying .ctLen 0 0 State.reset)) = some 0x00001000#32 ∧
    see State.lenmis (exec .ctLen (flying .ctLen 16 15 State.reset)) = some true := by decide
/-- V-CT1. -/
theorem test_ctFeed :
    see (fun t => (t.rem, t.status)) (exec (.ctFeed 16) (flying (.ctFeed 16) x x (armed 16))) =
      some (0, 0x00001000#32) := by decide
/-- V-CT2 and V-CT3 (first and last byte), V-CT4 (beyond N), V-CT8 and V-CT10 (rejections). -/
theorem test_ctFeed_corners :
    see State.diff (exec (.ctFeed 16) (flying (.ctFeed 16) x (x ^^^ (0x80#128 <<< 120)) (armed 16))) = some true ∧
    see State.diff (exec (.ctFeed 16) (flying (.ctFeed 16) x (x ^^^ 1) (armed 16))) = some true ∧
    see State.diff (exec (.ctFeed 4) (flying (.ctFeed 4) x (x ^^^ 1) (armed 4))) = some false ∧
    see State.status (step (command 0x1022 (armed 4))) = some 0x00000052#32 ∧
    see State.status (step (command 0x1022 State.reset)) = some 0x00000032#32 := by decide

/-! ### Control commands and errors (sections 3.5 and 3.6) -/

/-- V-C2: NOP is accepted in error and the error stays (BUSY shows until it completes). -/
theorem test_nop_in_error :
    see State.status (step (command 0 { State.reset with errcode := .illegal })) = some 0x00000013#32 ∧
    see State.status (exec .nop (flying .nop 0 0 { State.reset with errcode := .illegal })) = some 0x00000012#32 := by
  decide
/-- V-C5: CLR_ERR clears at issue, and the BUSY error recorded while it is in flight survives its completion. -/
theorem test_clrErr :
    see State.status (step (command 0x0F { State.reset with errcode := .illegal })) = some 0x00000001#32 ∧
    see State.status (step (command 1 (flying .clrErr 0 0 State.reset))) = some 0x00000063#32 ∧
    see State.status (exec .clrErr (flying .clrErr 0 0 { State.reset with errcode := .busy })) = some 0x00000062#32 := by
  decide
/-- V-C6: ZERO clears the state at completion and keeps ERRCODE = 6. -/
theorem test_zero :
    see (fun t => (t.status, t.h, t.opa))
      (exec .zero (flying .zero 0 0 { keyed h2 .aad with opa := x, errcode := .busy })) = some (0x00000062#32, 0, 0) := by
  decide
/-- V-E12: GF_ADD while GF_MUL is in flight. -/
theorem test_busy : see State.status (step (command 2 (flying .gfMul h2 h2 State.reset))) = some 0x00000063#32 := by
  decide
/-- V-E1, and the sticky first error after V-E11. -/
theorem test_illegal :
    see State.status (step (command 3 State.reset)) = some 0x00000012#32 ∧
    see State.status (step (command 3 { State.reset with errcode := .badCount })) = some 0x00000022#32 := by
  decide
/-- R189: GF_MUL is dropped while ERR = 1. -/
theorem test_blocked :
    see State.inflight (step (command 1 { State.reset with errcode := .order })) = some none := by decide

/-! ### The bus and reset (sections 3.7 and 3.8) -/

/-- V-B1 to V-B7. -/
theorem test_reads :
    let s := { State.reset with opa := count128 }
    hostRead 0x00#8 s = 0x47480001#32 ∧ hostRead 0x04#8 s = 0 ∧ hostRead 0x0C#8 s = 0 ∧
    hostRead 0x10#8 s = 0x01234567#32 ∧ hostRead 0x13#8 s = 0x01234567#32 ∧ hostRead 0x1C#8 s = 0x76543210#32 ∧
    hostRead 0x60#8 s = 0 ∧ hostRead 0xFC#8 s = 0 := by decide
/-- V-B9: a write at 0x12 writes OPA0. -/
theorem test_write_opa :
    see State.opa (step { State.reset with opa := count128, agenda := [.access (.write 0x12#8 0xAAAAAAAA#32)] }) =
      some 0xaaaaaaaa89abcdeffedcba9876543210#128 := by decide
/-- V-R2: a reset abandons the command in flight. -/
theorem test_reset_in_flight :
    see (fun t => (t.inflight, t.res)) (step { flying .gfMul h2 c2 State.reset with agenda := [.reset none] }) =
      some (none, 0) := by decide
/-- V-R3: a CMD write in a reset cycle is lost. -/
theorem test_reset_write_lost :
    see State.status (step { keyed h2 .aad with agenda := [.reset (some (.write 0x04#8 1))] }) = some 0 := by
  decide

/-! ### The end of a run (R220) -/

/-- V-A1 as a run: GF_ADD issued and nothing else scheduled ends with the sum in RES and nothing in flight. -/
theorem test_endOfRun :
    let s := command 2 { State.reset with opa := count128, opb := 0xfedcba98765432100123456789abcdef#128 }
    runEnded s = false ∧ (endOfRun s).res = BitVec.allOnes 128 ∧ runEnded (endOfRun s) = true := by decide
/-- P5's first rejection: a command rejected as the host's last access ends the run at once, with the error. -/
theorem test_endOfRun_rejected :
    (endOfRun (command 0x11 State.reset)).status = 0x00000042#32 ∧
    runEnded { State.reset with agenda := [.access (.read 0x08#8)] } = false ∧
    runEnded { flying .nop 0 0 State.reset with agenda := [] } = false := by decide

/-! ### The reference functions -/

/-- V-G8 (TC4): the GHASH of 20 and 60 bytes. -/
theorem test_ghash_tc4 :
    ghash h4
      [0xfe, 0xed, 0xfa, 0xce, 0xde, 0xad, 0xbe, 0xef, 0xfe, 0xed, 0xfa, 0xce, 0xde, 0xad, 0xbe, 0xef,
       0xab, 0xad, 0xda, 0xd2]
      [0x42, 0x83, 0x1e, 0xc2, 0x21, 0x77, 0x74, 0x24, 0x4b, 0x72, 0x21, 0xb7, 0x84, 0xd0, 0xd4, 0x9c,
       0xe3, 0xaa, 0x21, 0x2f, 0x2c, 0x02, 0xa4, 0xe0, 0x35, 0xc1, 0x7e, 0x23, 0x29, 0xac, 0xa1, 0x2e,
       0x21, 0xd5, 0x14, 0xb2, 0x54, 0x66, 0x93, 0x1c, 0x7d, 0x8f, 0x6a, 0x5a, 0xac, 0x84, 0xaa, 0x05,
       0x1b, 0xa3, 0x0b, 0x39, 0x6a, 0x0a, 0xac, 0x97, 0x3d, 0x58, 0xe0, 0x91] =
      0x698e57f70e6ecc7fd9463b7260a9ae5f#128 := by decide +kernel
/-- R150: unequal lengths, an unequal last byte, two empty sequences. -/
theorem test_ctEqual :
    ctEqual [1, 2] [1] = false ∧ ctEqual [1, 2] [1, 3] = false ∧ ctEqual [] [] = true ∧ ctEqual [1, 2] [1, 2] = true := by
  decide

/-! ### Witnesses: states and operands that meet the hypotheses of each statement, at the boundary of each clause -/

theorem witness_EncodeOfDecode : decode 0x00001F22#32 = .ok (.ctFeed 31) := rfl

theorem witness_IllegalWords :
    (command 0x80000000#32 (flying .nop 0 0 State.reset)).agenda = .access (.write 0x04#8 0x80000000#32) :: [] ∧
    0x04#8 &&& 0xFC#8 = 0x04#8 ∧ decode 0x80000000#32 = .error .reservedBits := ⟨rfl, rfl, rfl⟩

theorem witness_SelectionByMask :
    decode 0x00001F13#32 = .ok (.ghCt 31) ∧ 0x00001F13#32 &&& (Instr.ghCt 5).mask = (Instr.ghCt 5).opcode.setWidth 32 ∧
    0x00000014#32 &&& Instr.ghFinal.mask = Instr.ghFinal.opcode.setWidth 32 := ⟨rfl, rfl, rfl⟩

theorem witness_LowOffsetBitsIgnored : 0x10#8 &&& 0xFC#8 = 0x13#8 &&& 0xFC#8 := rfl

/-- A state whose next event is one host access. -/
def accessing (acc : Access) (s : State) : State := { s with agenda := [.access acc] }

theorem witness_IgnoredOffsets_write :
    (∀ off ∈ [0x00#8, 0x03#8, 0x08#8, 0x0F#8, 0x30#8, 0x5F#8, 0x60#8, 0xFF#8],
      (accessing (.write off 7) State.reset).agenda = .access (.write off 7) :: [] ∧ off &&& 0xFC#8 ≠ 0x04#8 ∧
      ¬(0x10 ≤ off.toNat ∧ off.toNat ≤ 0x2F)) := by decide

theorem witness_IgnoredOffsets_read :
    (∀ off ∈ [0x04#8, 0x07#8, 0x0C#8, 0x0F#8, 0x60#8, 0xFF#8],
      (accessing (.read off) State.reset).agenda = .access (.read off) :: [] ∧
      (off &&& 0xFC#8 = 0x04#8 ∨ off &&& 0xFC#8 = 0x0C#8 ∨ 0x60 ≤ off.toNat)) := by decide

theorem witness_OperandWriteChangesOneWord :
    (accessing (.write (0x10#8 + BitVec.ofNat 8 (4 * (0 : Fin 4).val)) 7) State.reset).agenda =
      .access (.write (0x10#8 + BitVec.ofNat 8 (4 * (0 : Fin 4).val)) 7) :: [] ∧
    (accessing (.write (0x20#8 + BitVec.ofNat 8 (4 * (3 : Fin 4).val)) 7) State.reset).agenda =
      .access (.write (0x20#8 + BitVec.ofNat 8 (4 * (3 : Fin 4).val)) 7) :: [] := ⟨rfl, rfl⟩

theorem witness_ReadHasNoSideEffect :
    (accessing (.read 0xFF#8) State.reset).agenda = .access (.read 0xFF#8) :: [] := rfl

theorem witness_StatusRegister :
    (accessing (.write 0x08#8 7) State.reset).agenda = .access (.write 0x08#8 7) :: [] ∧
    (accessing (.read 0x08#8) State.reset).agenda = .access (.read 0x08#8) :: [] := ⟨rfl, rfl⟩

/-- Two states that differ in every comparator register, both unequal or incomplete. -/
theorem witness_SecretsUnreadable :
    (withComparator { State.reset with diff := true, lenmis := true, rem := 5 } (armed 3)).cmpEq = (armed 3).cmpEq := by
  decide

/-- The step the engine takes for `i`. -/
def completing (i : Instr) (a b : Block) (s : State) : State := { flying i a b s with agenda := [.complete] }

theorem witness_SubkeyWriters : ∃ t, step (completing .ghSeth x 0 State.reset) = .next t ∧ t.h = x := ⟨_, rfl, rfl⟩

theorem witness_OperandWriters :
    ∃ t, step (accessing (.write 0x2F#8 7) State.reset) = .next t ∧ t.opb = 7 := ⟨_, rfl, by decide⟩

theorem witness_ResultWriters :
    (∃ t, step (completing .gfAdd x 0 State.reset) = .next t ∧ t.res ≠ State.reset.res) ∧
    (∃ t, step (completing (.ghAad 16) x 0 (keyed h2 .aad)) = .next t ∧ t.y ≠ 0 ∧ t.lena ≠ 0) ∧
    (∃ t, step (completing (.ghCt 1) x 0 (keyed h2 .aad)) = .next t ∧ t.phase ≠ .aad ∧ t.lenc ≠ 0) ∧
    ∀ d rest, (completing .gfAdd x 0 State.reset).agenda ≠ .reset d :: rest := by
  refine ⟨⟨_, rfl, by decide⟩, ⟨_, rfl, by decide⟩, ⟨_, rfl, by decide⟩, ?_⟩
  intro d rest h
  cases h

theorem witness_DiffIsSticky :
    (∃ t, step (completing (.ctFeed 1) x x { armed 1 with diff := true }) = .next t ∧ t.diff = true) ∧
    (∃ t, step (completing .ctClear x x { armed 1 with diff := true }) = .next t ∧ t.diff = false) := by
  exact ⟨⟨_, rfl, by decide⟩, ⟨_, rfl, rfl⟩⟩

theorem witness_ErrorIsSticky :
    (∃ t, step (command 0x03 { State.reset with errcode := .order }) = .next t ∧ t.errcode = .order) ∧
    (∃ t, step (command 0x0F { State.reset with errcode := .order }) = .next t ∧ t.errcode = .noError) :=
  ⟨⟨_, rfl, rfl⟩, ⟨_, rfl, rfl⟩⟩

theorem witness_ResultsHeldWhileBusy :
    ∃ t, step (command 0x01 (flying .gfMul x x State.reset)) = .next t ∧
      (command 0x01 (flying .gfMul x x State.reset)).inflight = some ⟨.gfMul, x, x⟩ ∧ t.inflight ≠ none :=
  ⟨_, rfl, rfl, by decide⟩

theorem witness_LatchedOperandsShielded :
    (flying .gfMul x x State.reset).inflight = some ⟨.gfMul, x, x⟩ ∧ Instr.gfMul ≠ .zero ∧
    0x10 ≤ (0x10#8).toNat ∧ (0x2F#8).toNat < 0x30 := by decide

theorem witness_ResetFromAnyState :
    { keyed h2 .ct with agenda := [Event.reset (some (.read 0xFF#8))] }.agenda = .reset (some (.read 0xFF#8)) :: [] := rfl

theorem witness_StepRunsCommand :
    (accessing (.write 0x07#8 0x1F22) State.reset).agenda = .access (.write 0x07#8 0x1F22) :: [] ∧
    0x07#8 &&& 0xFC#8 = 0x04#8 ∧ decode 0x1F22#32 = .ok (.ctFeed 31) := ⟨rfl, rfl, rfl⟩

theorem witness_StepCompletes :
    (completing .zero x x State.reset).inflight = some ⟨.zero, x, x⟩ ∧
    (completing .zero x x State.reset).agenda = .complete :: [] ∧ (flying .zero x x State.reset).agenda = [] :=
  ⟨rfl, rfl, rfl⟩

theorem witness_IdleBlockWaits :
    State.reset.inflight = none ∧ State.reset.agenda = [] ∧ { State.reset with agenda := [Event.complete] }.inflight = none :=
  ⟨rfl, rfl, rfl⟩

theorem witness_IssueFunction :
    (command 0x13 (keyed h2 .aad)).agenda = .access (.write 0x04#8 0x13) :: [] ∧ 0x04#8 &&& 0xFC#8 = 0x04#8 ∧
    ∃ t, step (command 0x13 (flying (.ctFeed 9) x x (armed 9))) = .next t ∧ t.inflight = some ⟨.ctFeed 9, x, x⟩ :=
  ⟨rfl, rfl, _, rfl, rfl⟩

theorem witness_BusyRejection :
    (command 0x80000000#32 (flying .zero x x State.reset)).inflight = some ⟨.zero, x, x⟩ ∧ 0x04#8 &&& 0xFC#8 = 0x04#8 ∧
    (command 0x80000000#32 (flying .zero x x State.reset)).agenda = .access (.write 0x04#8 0x80000000#32) :: [] :=
  ⟨rfl, rfl, rfl⟩

theorem witness_BlockedWhileError :
    let s := { State.reset with errcode := ErrCode.badCount }
    s.turn = .host ∧ s.inflight = none ∧ s.errcode ≠ .noError ∧ Instr.gfMul ∉ [Instr.nop, .clrErr, .zero] ∧
    Instr.nop ∈ [Instr.nop, .clrErr, .zero] := by decide

theorem witness_ErrorsArePrecise :
    State.reset.turn = .host ∧ ∃ t, exec .ghInit State.reset = .next t ∧ t.inflight = State.reset.inflight := ⟨rfl, _, rfl, rfl⟩

/-- No error, nothing in flight, the host's turn. -/
theorem witness_clean :
    State.reset.turn = .host ∧ State.reset.inflight = none ∧ State.reset.errcode = .noError ∧
    (keyed h2 .aad).turn = .host ∧ (keyed h2 .aad).inflight = none ∧ (keyed h2 .aad).errcode = .noError ∧
    (armed 3).turn = .host ∧ (armed 3).inflight = none ∧ (armed 3).errcode = .noError := by decide

theorem witness_BadCountRejection :
    ((0 : Count).toNat = 0 ∨ 17 ≤ (0 : Count).toNat) ∧ ((17 : Count).toNat = 0 ∨ 17 ≤ (17 : Count).toNat) ∧
    ((31 : Count).toNat = 0 ∨ 17 ≤ (31 : Count).toNat) := by decide

theorem witness_OrderRejection :
    1 ≤ (1 : Count).toNat ∧ (16 : Count).toNat ≤ 16 ∧ (keyed h2 .ctp).phase ∉ [Phase.idle, .done] ∧
    (keyed h2 .done).phase ≠ .aad ∧ (keyed h2 .ctp).phase ∉ [Phase.aad, .aadp, .ct] ∧
    State.reset.phase ∈ [Phase.idle, .done] ∧ (armed 0).armed = true ∧ State.reset.armed = false := by decide

theorem witness_NoKeyRejection : State.reset.hvalid = false := rfl

/-- The least length that passes the bound with n = 16, and a REM of n - 1. -/
theorem witness_LengthOverflowRejection :
    (keyed h2 .aad).phase = .aad ∧ 2 ^ 64 - 1 < (0xFFFFFFFFFFFFFF80#64).toNat + 8 * (16 : Count).toNat ∧
    (keyed h2 .ct).phase ∈ [Phase.aad, .aadp, .ct] ∧ (armed 15).armed = true ∧
    (armed 15).rem.toNat < (16 : Count).toNat := by decide

theorem witness_UncheckedCommandsAccepted : Instr.ctClear ∈ [Instr.gfMul, .gfAdd, .ctClear] := by decide

/-- The greatest length that does not pass the bound with n = 15. -/
theorem witness_GhashCommandsAccepted :
    ((keyed h2 .done).phase = .idle ∨ (keyed h2 .done).phase = .done) ∧ (keyed h2 .ctp).hvalid = true ∧
    1 ≤ (15 : Count).toNat ∧ (15 : Count).toNat ≤ 16 ∧ (keyed h2 .aad).phase = .aad ∧
    (0xFFFFFFFFFFFFFF80#64).toNat + 8 * (15 : Count).toNat ≤ 2 ^ 64 - 1 ∧
    ((keyed h2 .ct).phase = .aad ∨ (keyed h2 .ct).phase = .aadp ∨ (keyed h2 .ct).phase = .ct) ∧
    (keyed h2 .ctp).phase ≠ .idle ∧ (keyed h2 .ctp).phase ≠ .done := by decide

theorem witness_ComparatorCommandsAccepted :
    State.reset.armed = false ∧ (armed 16).armed = true ∧ (16 : Count).toNat ≤ (armed 16).rem.toNat := by decide

/-- Completions: the command in flight, in the engine's turn. One witness serves every command without a count. -/
theorem witness_completions (i : Instr) :
    (flying i x c2 (keyed h2 .aad)).turn = .engine ∧ (flying i x c2 (keyed h2 .aad)).inflight = some ⟨i, x, c2⟩ :=
  ⟨rfl, rfl⟩

/-- GH_AAD and GH_CT at their greatest count and greatest length. -/
theorem witness_absorbing :
    (flying (.ghAad 16) x c2 { keyed h2 .aad with lena := 0xFFFFFFFFFFFFFF78#64 }).inflight = some ⟨.ghAad 16, x, c2⟩ ∧
    1 ≤ (16 : Count).toNat ∧ (16 : Count).toNat ≤ 16 ∧ (0xFFFFFFFFFFFFFF78#64).toNat + 8 * (16 : Count).toNat ≤ 2 ^ 64 - 1 ∧
    (flying (.ghCt 1) x c2 { keyed h2 .ct with lenc := 0xFFFFFFFFFFFFFFF0#64 }).inflight = some ⟨.ghCt 1, x, c2⟩ ∧
    1 ≤ (1 : Count).toNat ∧ (1 : Count).toNat ≤ 16 ∧ (0xFFFFFFFFFFFFFFF0#64).toNat + 8 * (1 : Count).toNat ≤ 2 ^ 64 - 1 := by
  decide

theorem witness_CtFeedCompletes :
    (flying (.ctFeed 16) x c2 (armed 16)).turn = .engine ∧
    (flying (.ctFeed 16) x c2 (armed 16)).inflight = some ⟨.ctFeed 16, x, c2⟩ ∧ 1 ≤ (16 : Count).toNat ∧
    (16 : Count).toNat ≤ 16 ∧ (16 : Count).toNat ≤ (flying (.ctFeed 16) x c2 (armed 16)).rem.toNat := by decide

theorem witness_FieldCommandsWriteNoFlag :
    (Instr.gfAdd = .gfMul ∨ Instr.gfAdd = .gfAdd) ∧
    (∃ t, exec .gfAdd (flying .gfAdd x c2 (keyed h2 .ct)) = .next t) ∧
    (∀ off ∈ [0x00#8, 0x2F#8, 0x40#8, 0xFF#8], ¬(0x30 ≤ off.toNat ∧ off.toNat < 0x40) ∧ off &&& 0xFC#8 ≠ 0x08#8) :=
  ⟨.inr rfl, ⟨_, rfl⟩, by decide⟩

theorem witness_EnginesAreIndependent :
    (∃ t, exec (.ctFeed 4) (flying (.ctFeed 4) x c2 (armed 4)) = .next t) ∧
    ∃ t, exec (.ghAad 4) (flying (.ghAad 4) x c2 (keyed h2 .aad)) = .next t := ⟨⟨_, rfl⟩, ⟨_, rfl⟩⟩

/-- Two blocks that agree in byte 0 and differ in every other byte. -/
theorem witness_FillerBytesIgnored :
    (flying .nop 0 0 State.reset).turn = .engine ∧ 1 ≤ (1 : Count).toNat ∧ (1 : Count).toNat ≤ 16 ∧
    ∀ j < (1 : Count).toNat, blockByte 0xab000000000000000000000000000000#128 j =
      blockByte 0xabffffffffffffffffffffffffffffff#128 j := by decide

/-- 20 bytes of associated data and 7 of ciphertext, from a state with a subkey. -/
theorem witness_GhashCorrespondence :
    let a : List Byte := List.replicate 20 0xab
    let c : List Byte := List.replicate 7 0xcd
    let s := { keyed h2 .done with agenda := ghashSequence a c ++ [] }
    s.CleanEntry ∧ s.KeyLoaded h2 ∧ 8 * a.length ≤ 2 ^ 64 - 8 ∧ 8 * c.length ≤ 2 ^ 64 - 8 ∧
    s.agenda = ghashSequence a c ++ [] := by
  exact ⟨⟨rfl, rfl⟩, ⟨rfl, rfl⟩, by decide, by decide, rfl⟩

/-- 17 bytes against 16. -/
theorem witness_ComparatorCorrespondence :
    let a : List Byte := List.replicate 17 0xab
    let b : List Byte := List.replicate 16 0xab
    let s := { armed 9 with agenda := compareSequence a b [0xff] ++ [] }
    s.CleanEntry ∧ a.length ≤ 2 ^ 64 - 1 ∧ b.length ≤ 2 ^ 64 - 1 ∧ s.agenda = compareSequence a b [0xff] ++ [] := by
  exact ⟨⟨rfl, rfl⟩, by decide, by decide, rfl⟩

/-- A scheduled read, and a second state that differs in what no read shows. -/
theorem witness_EndOfRun :
    (∀ d, Event.reset d ∉ (accessing (.read 0x08#8) State.reset).agenda) ∧
    (∃ t, Host.Core.run Sys2Proof.core 1 (endOfRun (accessing (.read 0x08#8) State.reset)) = .next t) ∧
    (let u := { armed 3 with h := x }
     State.reset.opa = u.opa ∧ State.reset.opb = u.opb ∧ State.reset.res = u.res ∧ State.reset.y = u.y ∧
     State.reset.lena = u.lena ∧ State.reset.lenc = u.lenc ∧ State.reset.status = u.status) := by
  refine ⟨?_, ?_, by decide⟩
  · intro d h
    cases h with
    | tail _ h => cases h
  · obtain ⟨t, ht, -⟩ := step_to (endOfRun (accessing (.read 0x08#8) State.reset))
    exact ⟨t, by rw [run_succ ht, run_zero]⟩

/-- A run of one rejected CMD write: GH_INIT without a subkey. -/
theorem witness_ErrorCheckAtTheEnd :
    (command 0x11 State.reset).errcode = .noError ∧ noClear 1 (command 0x11 State.reset) ∧
    ∃ t, Host.Core.run Sys2Proof.core 1 (command 0x11 State.reset) = .next t ∧ t.errcode = .noKey := by
  refine ⟨rfl, ⟨?_, ?_, trivial⟩, _, rfl, rfl⟩
  · rintro w ⟨off, rest, ha, -⟩
    cases ha
    exact ⟨by decide, by decide⟩
  · intro d rest h
    cases h

/-- A GH_AAD of 4 bytes in flight after 16 bytes of associated data. -/
def midMessage : State := completing (.ghAad 4) x 0 { keyed h2 .aad with y := 1, lena := 128 }

theorem witness_InvariantKeptByStep : midMessage.Inv ∧ ∃ t, step midMessage = .next t := by
  refine ⟨?_, (step_to midMessage).imp fun _ h => h.1⟩
  constructor <;> decide

theorem witness_CountersNeverWrap :
    midMessage.Inv ∧ midMessage.inflight = some ⟨.ghAad 4, x, 0⟩ ∧
    (∃ t, step midMessage = .next t ∧ t.inflight = none) ∧ ∀ d rest, midMessage.agenda ≠ .reset d :: rest := by
  refine ⟨witness_InvariantKeptByStep.1, rfl, ⟨_, (step_complete (.inl rfl)).trans (complete_inflight rfl), rfl⟩, ?_⟩
  intro d rest h
  cases h

end Sys2Proof.Tests
end

namespace Sys2Proof.Proofs

open Sys2Proof.Machine

/-- A step answers a next state, whatever is scheduled: the existence half of the inversion lemma `step_to`. -/
theorem step_next (s : State) : ∃ t, step s = .next t := by
  obtain ⟨t, ht, -⟩ := step_to s
  exact ⟨t, ht⟩

/-- Settles O25: the step by the inversion lemma over the agents' events, a command's meaning by the turn it is taken
in. -/
theorem stepNeverStops : Obligations.StepNeverStops := ⟨step_next, exec_next⟩

end Sys2Proof.Proofs

namespace Sys2Proof.Proofs

open Sys2Proof.Machine Sys2Proof.Reference

/-! ### What a step does to the block's registers -/

/-- The two states hold the same results and flags: every register of R20 but OPA, OPB, ERRCODE and the slot. -/
structure SameResults (t s : State) : Prop where
  res : t.res = s.res
  y : t.y = s.y
  lena : t.lena = s.lena
  lenc : t.lenc = s.lenc
  h : t.h = s.h
  hvalid : t.hvalid = s.hvalid
  phase : t.phase = s.phase
  diff : t.diff = s.diff
  lenmis : t.lenmis = s.lenmis
  armed : t.armed = s.armed
  rem : t.rem = s.rem

/-- The step from `s` to `t` by what becomes of the slot (R190, R191, R210), with the results, the slot and the error it
leaves. -/
inductive SlotStep (s t : State) : Prop where
  /-- No command is accepted or completed; an error may be recorded, the first one kept (R188). -/
  | keeps (results : SameResults t s) (slot : t.inflight = s.inflight)
      (error : s.errcode ≠ .noError → t.errcode = s.errcode)
  /-- A command that passes its checks takes the free slot (R190). -/
  | accepts (i : Instr) (free : s.inflight = none) (checked : checkOf i s = none) (results : SameResults t s)
      (slot : t.inflight = some ⟨i, s.opa, s.opb⟩)
      (error : t.errcode = if clearsError i then .noError else s.errcode)
  /-- The command in flight has its effect and frees the slot (R191). -/
  | completes (f : Inflight) (busy : s.inflight = some f)
      (results : SameResults t (freeSlot (effectOf f.instr f.a f.b s))) (slot : t.inflight = none)
      (error : t.errcode = s.errcode)
  /-- A cycle of reset (R210). -/
  | resets (d : Option Access) (rest : List Event) (next : s.agenda = .reset d :: rest)
      (results : SameResults t State.reset) (slot : t.inflight = none) (error : t.errcode = .noError)

/-- Recording an error changes ERRCODE only, and only from 0 (R188). -/
theorem slotStep_raise (c : ErrCode) (g : Agent) (rest : List Event) (s : State) :
    SlotStep s (raise c (actAs g (schedule rest s))) :=
  .keeps (by constructor <;> simp) (by simp) fun he => by simp [he]

theorem slotStep_issue (i : Instr) (rest : List Event) (s : State) :
    SlotStep s (issue i (checkOf i s) (actAs .host (schedule rest s))) := by
  obtain ⟨-, h⟩ | ⟨-, -, -, h⟩ | ⟨hf, -, ⟨c, -, h⟩ | ⟨hc, h⟩⟩ :=
    issue_cases i (checkOf i s) (actAs .host (schedule rest s))
  · rw [h]; exact slotStep_raise ..
  · rw [h]; exact .keeps (by constructor <;> rfl) rfl fun _ => rfl
  · rw [h]; exact slotStep_raise ..
  · rw [h]; exact .accepts i hf hc (by constructor <;> simp) (by simp) (by simp)

/-- What is scheduled, and whose turn it is, do not enter an effect. -/
theorem effectOf_actAs_schedule (i : Instr) (a b : Block) (g : Agent) (rest : List Event) (s : State) :
    effectOf i a b (actAs g (schedule rest s)) = actAs g (schedule rest (effectOf i a b s)) := by
  cases i with
  | ghAad n => simp only [effectOf, effectGhAad, actAs, schedule, absorb]
  | ghCt n => simp only [effectOf, effectGhCt, actAs, schedule, absorb]
  | ghFinal => simp only [effectOf, effectGhFinal, actAs, schedule, absorb]
  | _ => rfl

theorem slotStep_resetStep {s : State} {d : Option Access} {rest : List Event} (ha : s.agenda = .reset d :: rest) :
    SlotStep s (resetStep d (schedule rest s)) := by
  rcases d with _ | ⟨off | ⟨off, v⟩⟩ <;> exact .resets _ rest ha (by constructor <;> rfl) rfl rfl

/-- Every step is one of the four. -/
theorem step_slotStep {s t : State} (h : step s = .next t) : SlotStep s t := by
  cases step_inv h with
  | read off rest ha => exact .keeps (by constructor <;> rfl) rfl fun _ => rfl
  | write off v rest ha hr => exact .keeps (by constructor <;> simp) (by simp) fun _ => by simp
  | illegal off w e rest ha hr hd => exact issueIllegal_eq _ ▸ slotStep_raise ..
  | issue off w i rest ha hr hd => exact slotStep_issue i rest s
  | complete f rest ha hf =>
    rw [effectOf_actAs_schedule]
    exact .completes f hf (by constructor <;> simp) rfl (by simp)
  | idle rest ha hf => exact .keeps (by constructor <;> rfl) rfl fun _ => rfl
  | reset d rest ha => exact slotStep_resetStep ha

/-- A step that frees the slot and is no reset completes the command in flight. -/
theorem step_completes {s t : State} {f : Inflight} (h : step s = .next t) (hf : s.inflight = some f)
    (ht : t.inflight = none) (hnr : ∀ d rest, s.agenda ≠ .reset d :: rest) :
    SameResults t (freeSlot (effectOf f.instr f.a f.b s)) := by
  cases step_slotStep h with
  | keeps results slot error => simp [slot, hf] at ht
  | accepts i free checked results slot error => simp [slot] at ht
  | completes g busy results slot error =>
    cases hf.symm.trans busy
    exact results
  | resets d rest next results slot error => exact absurd next (hnr d rest)

/-! ### When a counted or an ordered command passes its checks -/

theorem countOk_iff (n : Count) : countOk n = true ↔ 1 ≤ n.toNat ∧ n.toNat ≤ 16 := by simp [countOk]

theorem passesBound_eq_false {l : Length} {n : Count} :
    passesBound l n = false ↔ l.toNat + 8 * n.toNat ≤ 2 ^ 64 - 1 := by simp [passesBound]

theorem checkGhInit_eq_none {s : State} : checkGhInit s = none ↔ s.hvalid = true := by simp [checkGhInit]

theorem checkGhAad_eq_none {n : Count} {s : State} : checkGhAad n s = none ↔
    (1 ≤ n.toNat ∧ n.toNat ≤ 16) ∧ s.phase = .aad ∧ s.lena.toNat + 8 * n.toNat ≤ 2 ^ 64 - 1 := by
  rw [← countOk_iff, ← passesBound_eq_false]
  unfold checkGhAad
  split_ifs <;> simp_all

theorem checkGhCt_eq_none {n : Count} {s : State} : checkGhCt n s = none ↔
    (1 ≤ n.toNat ∧ n.toNat ≤ 16) ∧ (s.phase = .aad ∨ s.phase = .aadp ∨ s.phase = .ct) ∧
      s.lenc.toNat + 8 * n.toNat ≤ 2 ^ 64 - 1 := by
  rw [← countOk_iff, ← passesBound_eq_false]
  unfold checkGhCt
  split_ifs <;> simp_all

theorem checkGhFinal_eq_none {s : State} : checkGhFinal s = none ↔
    s.phase = .aad ∨ s.phase = .aadp ∨ s.phase = .ct ∨ s.phase = .ctp := by
  unfold checkGhFinal
  split_ifs <;> simp_all

theorem checkCtFeed_eq_none {n : Count} {s : State} : checkCtFeed n s = none ↔
    (1 ≤ n.toNat ∧ n.toNat ≤ 16) ∧ s.armed = true ∧ n.toNat ≤ s.rem.toNat := by
  rw [← countOk_iff, ← Nat.not_lt]
  unfold checkCtFeed
  split_ifs <;> simp_all

/-! ### The invariant of every run -/

/-- The invariant speaks of the results and of the slot. -/
theorem inv_of_sameResults {s t : State} (hi : s.Inv) (hr : SameResults t s)
    (hs : ∀ f, t.inflight = some f → checkOf f.instr s = none) : t.Inv where
  keyed := by rw [hr.phase, hr.hvalid]; exact hi.keyed
  unkeyed := by rw [hr.hvalid, hr.h]; exact hi.unkeyed
  idleClear := by rw [hr.phase, hr.y, hr.lena, hr.lenc]; exact hi.idleClear
  unarmed := by rw [hr.armed, hr.diff, hr.lenmis, hr.rem]; exact hi.unarmed
  wholeBytes := by rw [hr.lena, hr.lenc]; exact hi.wholeBytes
  aadWhole := by rw [hr.phase, hr.lena, hr.lenc]; exact hi.aadWhole
  aadPartial := by rw [hr.phase, hr.lena, hr.lenc]; exact hi.aadPartial
  ctWhole := by rw [hr.phase, hr.lenc]; exact hi.ctWhole
  ctPartial := by rw [hr.phase, hr.lenc]; exact hi.ctPartial
  slotChecked := fun f hf =>
    (checkOf_congr f.instr hr.phase hr.hvalid hr.lena hr.lenc hr.armed hr.rem).trans (hs f hf)

/-- Settles O57: at reset PHASE is IDLE, every counter is 0 and the slot is free. -/
theorem invariantAtReset : Obligations.InvariantAtReset := by
  constructor <;> simp [State.reset]

theorem freeSlot_inv {s : State} (hi : s.Inv) : (freeSlot s).Inv := { hi with slotChecked := nofun }

theorem clearRegisters_inv (s : State) : (freeSlot (clearRegisters s)).Inv :=
  inv_of_sameResults invariantAtReset (by constructor <;> rfl) nofun

theorem effectGhSeth_inv {s : State} (hi : s.Inv) (a b : Block) : (freeSlot (effectGhSeth a b s)).Inv :=
  { hi with
    keyed := fun _ => rfl
    unkeyed := nofun
    slotChecked := nofun }

theorem effectGhInit_inv {s : State} (hi : s.Inv) (hc : checkGhInit s = none) (a b : Block) :
    (freeSlot (effectGhInit a b s)).Inv :=
  { hi with
    keyed := fun _ => checkGhInit_eq_none.1 hc
    idleClear := nofun
    wholeBytes := ⟨rfl, rfl⟩
    aadWhole := fun _ => ⟨rfl, rfl⟩
    aadPartial := nofun
    ctWhole := nofun
    ctPartial := nofun
    slotChecked := nofun }

/-- A whole block keeps LENA at whole blocks, a partial one takes it off them: the new PHASE says which (R126), and the
clauses on the other phases are vacuous. -/
theorem effectGhAad_inv {s : State} (hi : s.Inv) {n : Count} (hc : checkGhAad n s = none) (a b : Block) :
    (freeSlot (effectGhAad n a b s)).Inv := by
  obtain ⟨⟨hpos, hle⟩, hp, hbound⟩ := checkGhAad_eq_none.1 hc
  obtain ⟨hlena, hlenc⟩ := hi.aadWhole hp
  obtain ⟨-, hbytes⟩ := hi.wholeBytes
  have hsum : (freeSlot (effectGhAad n a b s)).lena.toNat = s.lena.toNat + 8 * n.toNat := add_bitCount hbound
  have hphase : (freeSlot (effectGhAad n a b s)).phase = if n.toNat = 16 then .aad else .aadp :=
    if_congr (count_eq_sixteen n) rfl rfl
  exact { hi with
    keyed := fun _ => hi.keyed (by simp [hp])
    idleClear := fun h => by grind
    wholeBytes := ⟨by omega, hbytes⟩
    aadWhole := fun h => ⟨by grind, hlenc⟩
    aadPartial := fun h => ⟨by grind, hlenc⟩
    ctWhole := fun h => by grind
    ctPartial := fun h => by grind
    slotChecked := nofun }

/-- LENC is at whole blocks before, as R127 refuses CTP; after a partial block it is not, as the new PHASE says. -/
theorem effectGhCt_inv {s : State} (hi : s.Inv) {n : Count} (hc : checkGhCt n s = none) (a b : Block) :
    (freeSlot (effectGhCt n a b s)).Inv := by
  obtain ⟨⟨hpos, hle⟩, hp, hbound⟩ := checkGhCt_eq_none.1 hc
  obtain ⟨hbytes, -⟩ := hi.wholeBytes
  have hwhole : s.lenc.toNat % 128 = 0 := by
    obtain hp | hp | hp := hp
    · simp [(hi.aadWhole hp).2]
    · simp [(hi.aadPartial hp).2]
    · exact (hi.ctWhole hp).1
  have hsum : (freeSlot (effectGhCt n a b s)).lenc.toNat = s.lenc.toNat + 8 * n.toNat := add_bitCount hbound
  have hphase : (freeSlot (effectGhCt n a b s)).phase = if n.toNat = 16 then .ct else .ctp :=
    if_congr (count_eq_sixteen n) rfl rfl
  exact { hi with
    keyed := fun _ => hi.keyed (by obtain hp | hp | hp := hp <;> simp [hp])
    idleClear := fun h => by grind
    wholeBytes := ⟨hbytes, by omega⟩
    aadWhole := fun h => by grind
    aadPartial := fun h => by grind
    ctWhole := fun h => ⟨by grind, fun h0 => by
      have : (freeSlot (effectGhCt n a b s)).lenc.toNat = 0 := by simp only [h0]; rfl
      omega⟩
    ctPartial := fun h => by grind
    slotChecked := nofun }

theorem effectGhFinal_inv {s : State} (hi : s.Inv) (hc : checkGhFinal s = none) (a b : Block) :
    (freeSlot (effectGhFinal a b s)).Inv :=
  { hi with
    keyed := fun _ => hi.keyed (by obtain hp | hp | hp | hp := checkGhFinal_eq_none.1 hc <;> simp [hp])
    idleClear := nofun
    aadWhole := nofun
    aadPartial := nofun
    ctWhole := nofun
    ctPartial := nofun
    slotChecked := nofun }

theorem effectCtClear_inv {s : State} (hi : s.Inv) (a b : Block) : (freeSlot (effectCtClear a b s)).Inv :=
  { hi with
    unarmed := fun _ => ⟨rfl, rfl, rfl⟩
    slotChecked := nofun }

theorem effectCtLen_inv {s : State} (hi : s.Inv) (a b : Block) : (freeSlot (effectCtLen a b s)).Inv :=
  { hi with
    unarmed := nofun
    slotChecked := nofun }

theorem effectCtFeed_inv {s : State} (hi : s.Inv) {n : Count} (hc : checkCtFeed n s = none) (a b : Block) :
    (freeSlot (effectCtFeed n a b s)).Inv :=
  { hi with
    unarmed := fun h => by
      obtain ⟨-, ha, -⟩ := checkCtFeed_eq_none.1 hc
      exact absurd (ha.symm.trans h) (by decide)
    slotChecked := nofun }

/-- The effect of a command that passes its checks keeps the invariant. -/
theorem effectOf_inv {s : State} (hi : s.Inv) {i : Instr} (hc : checkOf i s = none) (a b : Block) :
    (freeSlot (effectOf i a b s)).Inv := by
  cases i with
  | nop | clrErr => exact freeSlot_inv hi
  | gfMul | gfAdd => exact { hi with slotChecked := nofun }
  | zero => exact clearRegisters_inv s
  | ghSeth => exact effectGhSeth_inv hi a b
  | ghInit => exact effectGhInit_inv hi hc a b
  | ghAad n => exact effectGhAad_inv hi hc a b
  | ghCt n => exact effectGhCt_inv hi hc a b
  | ghFinal => exact effectGhFinal_inv hi hc a b
  | ctClear => exact effectCtClear_inv hi a b
  | ctLen => exact effectCtLen_inv hi a b
  | ctFeed n => exact effectCtFeed_inv hi hc a b

/-- Settles O58: the command in flight passed its checks at issue and the results have held since, so that its effect
keeps the invariant. -/
theorem invariantKeptByStep : Obligations.InvariantKeptByStep := by
  intro s t hi h
  cases step_slotStep h with
  | keeps results slot error => exact inv_of_sameResults hi results fun f hf => hi.slotChecked f (slot ▸ hf)
  | accepts i free checked results slot error =>
    refine inv_of_sameResults hi results fun f hf => ?_
    cases slot.symm.trans hf
    exact checked
  | completes f busy results slot error =>
    exact inv_of_sameResults (effectOf_inv hi (hi.slotChecked f busy) f.a f.b) results fun g hg => by simp [slot] at hg
  | resets d rest next results slot error =>
    exact inv_of_sameResults invariantAtReset results fun g hg => by simp [slot] at hg

/-- Settles O59: the command in flight passed its bound at issue, and no result has changed since. -/
theorem countersNeverWrap : Obligations.CountersNeverWrap := by
  intro s t f n hi h hf ht hnr
  have hr := step_completes h hf ht hnr
  have hc := hi.slotChecked f hf
  refine ⟨fun hn => ?_, fun hn => ?_, fun hn => ?_⟩ <;> rw [hn] at hr hc
  · obtain ⟨-, -, hbound⟩ := checkGhAad_eq_none.1 hc
    rw [hr.lena]
    exact add_bitCount hbound
  · obtain ⟨-, -, hbound⟩ := checkGhCt_eq_none.1 hc
    rw [hr.lenc]
    exact add_bitCount hbound
  · obtain ⟨-, -, hbound⟩ := checkCtFeed_eq_none.1 hc
    have hleft : t.rem.toNat = s.rem.toNat - n.toNat := by rw [hr.rem]; exact sub_byteCount hbound
    omega

/-! ### What each effect writes -/

/-- GF_MUL, GF_ADD and ZERO are the writers of RES (R23). -/
theorem effectOf_res_writer {i : Instr} {a b : Block} {s : State} (h : (effectOf i a b s).res ≠ s.res) :
    i ∈ [Instr.gfMul, .gfAdd, .zero] := by
  cases i with
  | gfMul | gfAdd | zero => simp
  | _ => exact absurd rfl h

/-- Y and PHASE change with GH_INIT, GH_AAD, GH_CT, GH_FINAL and ZERO only (R24, R29). -/
theorem effectOf_y_phase_writer {i : Instr} {a b : Block} {s : State}
    (h : (effectOf i a b s).y ≠ s.y ∨ (effectOf i a b s).phase ≠ s.phase) :
    i ∈ [Instr.ghInit, .ghFinal, .zero] ∨ ∃ n, i = .ghAad n ∨ i = .ghCt n := by
  cases i with
  | ghInit | ghFinal | zero => exact .inl (by simp)
  | ghAad n => exact .inr ⟨n, .inl rfl⟩
  | ghCt n => exact .inr ⟨n, .inr rfl⟩
  | _ => exact h.elim (absurd rfl) (absurd rfl)

/-- LENA counts the associated data (R25). -/
theorem effectOf_lena_writer {i : Instr} {a b : Block} {s : State} (h : (effectOf i a b s).lena ≠ s.lena) :
    i ∈ [Instr.ghInit, .zero] ∨ ∃ n, i = .ghAad n := by
  cases i with
  | ghInit | zero => exact .inl (by simp)
  | ghAad n => exact .inr ⟨n, rfl⟩
  | _ => exact absurd rfl h

/-- LENC counts the ciphertext (R26). -/
theorem effectOf_lenc_writer {i : Instr} {a b : Block} {s : State} (h : (effectOf i a b s).lenc ≠ s.lenc) :
    i ∈ [Instr.ghInit, .zero] ∨ ∃ n, i = .ghCt n := by
  cases i with
  | ghInit | zero => exact .inl (by simp)
  | ghCt n => exact .inr ⟨n, rfl⟩
  | _ => exact absurd rfl h

/-- GH_SETH loads the subkey, ZERO clears it, and no other effect touches it (R27, R28). -/
theorem effectOf_subkey (i : Instr) (a b : Block) (s : State) :
    ((effectOf i a b s).h = s.h ∧ (effectOf i a b s).hvalid = s.hvalid) ∨
    (i = .ghSeth ∧ (effectOf i a b s).h = a ∧ (effectOf i a b s).hvalid = true) ∨
    (i = .zero ∧ (effectOf i a b s).h = 0 ∧ (effectOf i a b s).hvalid = false) := by
  cases i with
  | ghSeth => exact .inr (.inl ⟨rfl, rfl, rfl⟩)
  | zero => exact .inr (.inr ⟨rfl, rfl, rfl⟩)
  | _ => exact .inl ⟨rfl, rfl⟩

/-- ZERO is the one effect on OPA and OPB (R21, R22, R171). -/
theorem effectOf_operands {i : Instr} (hi : i ≠ .zero) (a b : Block) (s : State) :
    (effectOf i a b s).opa = s.opa ∧ (effectOf i a b s).opb = s.opb := by
  cases i with
  | zero => exact absurd rfl hi
  | _ => exact ⟨rfl, rfl⟩

/-- CT_FEED only adds to DIFF (R154); CT_CLEAR and ZERO clear it. -/
theorem effectOf_diff {i : Instr} {a b : Block} {s : State} (h : s.diff = true) :
    (effectOf i a b s).diff = true ∨ i = .ctClear ∨ i = .zero := by
  cases i with
  | ctClear => exact .inr (.inl rfl)
  | zero => exact .inr (.inr rfl)
  | ctFeed n => exact .inl (by simp [effectOf, effectCtFeed, h])
  | _ => exact .inl h

/-! ### Which steps change which register -/

/-- Settles O13: a step keeps the subkey, or it is the effect in flight or a reset. -/
theorem subkeyWriters : Obligations.SubkeyWriters := by
  intro s t h
  cases step_slotStep h with
  | keeps results slot error => exact .inl ⟨results.h, results.hvalid⟩
  | accepts i free checked results slot error => exact .inl ⟨results.h, results.hvalid⟩
  | completes f busy results slot error =>
    rw [results.h, results.hvalid, freeSlot_h, freeSlot_hvalid]
    obtain hkept | hseth | hzero := effectOf_subkey f.instr f.a f.b s
    · exact .inl hkept
    · exact .inr (.inl ⟨f, busy, slot, .inl hseth⟩)
    · exact .inr (.inl ⟨f, busy, slot, .inr hzero⟩)
  | resets d rest next results slot error => exact .inr (.inr ⟨d, rest, next, results.h, results.hvalid⟩)

/-- A step that is no reset leaves the results as they are, or they are those of the effect in flight. -/
theorem step_results {s t : State} (h : step s = .next t) (hnr : ∀ d rest, s.agenda ≠ .reset d :: rest) :
    SameResults t s ∨ ∃ f, s.inflight = some f ∧ t.inflight = none ∧
      SameResults t (freeSlot (effectOf f.instr f.a f.b s)) := by
  cases step_slotStep h with
  | keeps results slot error => exact .inl results
  | accepts i free checked results slot error => exact .inl results
  | completes f busy results slot error => exact .inr ⟨f, busy, slot, results⟩
  | resets d rest next results slot error => exact absurd next (hnr d rest)

/-- Settles O15: what changed, the effect in flight wrote. -/
theorem resultWriters : Obligations.ResultWriters := by
  intro s t h hnr
  obtain hr | ⟨f, hf, ht, hr⟩ := step_results h hnr
  · exact ⟨fun hne => absurd hr.res hne, fun hne => absurd hne (by simp [hr.y, hr.phase]),
      fun hne => absurd hr.lena hne, fun hne => absurd hr.lenc hne⟩
  · rw [hr.res, hr.y, hr.phase, hr.lena, hr.lenc]
    exact ⟨fun hne => ⟨f, hf, ht, effectOf_res_writer hne⟩, fun hne => ⟨f, hf, ht, effectOf_y_phase_writer hne⟩,
      fun hne => ⟨f, hf, ht, effectOf_lena_writer hne⟩, fun hne => ⟨f, hf, ht, effectOf_lenc_writer hne⟩⟩

/-- Settles O16: outside reset only an effect writes DIFF, and only two effects clear it. -/
theorem diffIsSticky : Obligations.DiffIsSticky := by
  intro s t h hd
  cases step_slotStep h with
  | keeps results slot error => exact .inl (results.diff.trans hd)
  | accepts i free checked results slot error => exact .inl (results.diff.trans hd)
  | completes f busy results slot error =>
    obtain hkept | hclear := effectOf_diff (i := f.instr) (a := f.a) (b := f.b) hd
    · exact .inl (results.diff.trans hkept)
    · exact .inr (.inl ⟨f, busy, slot, hclear⟩)
  | resets d rest next results slot error => exact .inr (.inr ⟨d, rest, next⟩)

theorem clearsError_iff (i : Instr) : clearsError i = true ↔ i = .clrErr ∨ i = .zero := by
  cases i <;> simp [clearsError]

/-- Settles O17: recording keeps the first error, and acceptance clears it for CLR_ERR and ZERO. -/
theorem errorIsSticky : Obligations.ErrorIsSticky := by
  intro s t h he
  cases step_slotStep h with
  | keeps results slot error => exact .inl (error he)
  | accepts i free checked results slot error =>
    by_cases hi : clearsError i = true
    · exact .inr (.inl ⟨by rw [error, if_pos hi], free, _, slot, (clearsError_iff i).1 hi⟩)
    · exact .inl (by rw [error, if_neg hi])
  | completes f busy results slot error => exact .inl error
  | resets d rest next results slot error => exact .inr (.inr ⟨d, rest, next, error⟩)

/-! ### OPA and OPB -/

/-- The offsets of R61 that are mapped to OPA. -/
theorem regAt_opa_range (off : Offset) : (∃ k, regAt off = .opa k) ↔ 0x10 ≤ off.toNat ∧ off.toNat < 0x20 := by
  revert off; decide +kernel

/-- The offsets of R61 that are mapped to OPB. -/
theorem regAt_opb_range (off : Offset) : (∃ k, regAt off = .opb k) ↔ 0x20 ≤ off.toNat ∧ off.toNat < 0x30 := by
  revert off; decide +kernel

/-- A host write reaches OPA, OPB or neither (R62, R64). -/
theorem writeOperand_cases (off : Offset) (v : Word) (s : State) :
    (0x10 ≤ off.toNat ∧ off.toNat < 0x20 ∧ (writeOperand (regAt off) v s).opb = s.opb) ∨
    (0x20 ≤ off.toNat ∧ off.toNat < 0x30 ∧ (writeOperand (regAt off) v s).opa = s.opa) ∨
    writeOperand (regAt off) v s = s := by
  cases hr : regAt off with
  | opa k =>
    obtain ⟨hlo, hhi⟩ := (regAt_opa_range off).1 ⟨k, hr⟩
    exact .inl ⟨hlo, hhi, rfl⟩
  | opb k =>
    obtain ⟨hlo, hhi⟩ := (regAt_opb_range off).1 ⟨k, hr⟩
    exact .inr (.inl ⟨hlo, hhi, rfl⟩)
  | _ => exact .inr (.inr rfl)

/-- Settles O14: of the ways of a step only a host write to their words, ZERO's effect and reset reach OPA and OPB. -/
theorem operandWriters : Obligations.OperandWriters := by
  intro s t h
  cases step_inv h with
  | read off rest ha => exact .inl ⟨rfl, rfl⟩
  | write off v rest ha hr =>
    obtain ⟨hlo, hhi, hb⟩ | ⟨hlo, hhi, hb⟩ | hn := writeOperand_cases off v (schedule rest s)
    · exact .inr (.inl ⟨off, v, rest, ha, hlo, hhi, hb⟩)
    · exact .inr (.inr (.inl ⟨off, v, rest, ha, hlo, hhi, hb⟩))
    · exact .inl (by rw [hn]; exact ⟨rfl, rfl⟩)
  | illegal off w e rest ha hr hd => exact .inl (by simp [issueIllegal_eq])
  | issue off w i rest ha hr hd => exact .inl (by rw [issue_keeps]; exact ⟨rfl, rfl⟩)
  | complete f rest ha hf =>
    by_cases hz : f.instr = .zero
    · exact .inr (.inr (.inr (.inl ⟨f, hf, hz, rfl, by rw [hz]; exact ⟨rfl, rfl⟩⟩)))
    · exact .inl (effectOf_operands hz f.a f.b _)
  | idle rest ha hf => exact .inl ⟨rfl, rfl⟩
  | reset d rest ha =>
    exact .inr (.inr (.inr (.inr ⟨d, rest, ha, by rcases d with _ | ⟨off | ⟨off, v⟩⟩ <;> exact ⟨rfl, rfl⟩⟩)))

/-- An effect works on the latched operands: a write of OPA or OPB commutes with it, but for ZERO's, which clears
them. -/
theorem effectOf_writeOperand {i : Instr} (hi : i ≠ .zero) (r : Reg) (v : Word) (a b : Block) (s : State) :
    effectOf i a b (writeOperand r v s) = writeOperand r v (effectOf i a b s) := by
  cases r with
  | opa k | opb k =>
    cases i with
    | zero => exact absurd rfl hi
    | ghAad n => simp only [effectOf, effectGhAad, writeOperand, absorb]
    | ghCt n => simp only [effectOf, effectGhCt, writeOperand, absorb]
    | ghFinal => simp only [effectOf, effectGhFinal, writeOperand, absorb]
    | _ => rfl
  | _ => rfl

/-- The slot, and whose turn it is, do not enter a write of OPA or OPB. -/
theorem writeOperand_freeSlot_actAs (r : Reg) (v : Word) (g : Agent) (s : State) :
    writeOperand r v (freeSlot (actAs g s)) = freeSlot (actAs g (writeOperand r v s)) := by cases r <;> rfl

theorem writeOperand_schedule (r : Reg) (v : Word) (rest : List Event) (s : State) :
    writeOperand r v (schedule rest s) = schedule rest (writeOperand r v s) := by cases r <;> rfl

theorem step_write {s : State} {off : Offset} {v : Word} {rest : List Event}
    (ha : s.agenda = .access (.write off v) :: rest) (hr : regAt off ≠ .cmd) :
    step s = .next (schedule rest (writeOperand (regAt off) v s)) := by
  rw [← writeOperand_schedule]
  unfold step runAgenda
  rw [ha]
  exact hostWrite_other hr v _

theorem step_read {s : State} {off : Offset} {rest : List Event} (ha : s.agenda = .access (.read off) :: rest) :
    step s = .next (readStep off (schedule rest s)) := by
  unfold step runAgenda
  rw [ha]
  rfl

theorem step_complete_inflight {s : State} {f : Inflight} {rest : List Event} (ha : s.agenda = .complete :: rest)
    (hf : s.inflight = some f) :
    step s = .next (schedule rest (freeSlot (actAs .engine (effectOf f.instr f.a f.b s)))) := by
  rw [step_complete (.inl ha), complete_inflight (s := schedule rest s) hf, effectOf_actAs_schedule]
  rfl

theorem effectOf_schedule (i : Instr) (a b : Block) (rest : List Event) (s : State) :
    effectOf i a b (schedule rest s) = schedule rest (effectOf i a b s) :=
  (effectOf_actAs_schedule i a b s.turn rest s).trans (by rw [← effectOf_turn i a b s]; rfl)

theorem regAt_operand_ne_cmd {off : Offset} (hlo : 0x10 ≤ off.toNat) (hhi : off.toNat < 0x30) :
    regAt off ≠ .cmd := by
  obtain h | h := Nat.lt_or_ge off.toNat 0x20
  · obtain ⟨k, hk⟩ := (regAt_opa_range off).2 ⟨hlo, h⟩
    simp [hk]
  · obtain ⟨k, hk⟩ := (regAt_opb_range off).2 ⟨h, hhi⟩
    simp [hk]

theorem run_two {s t u : State} (h : step s = .next t) (h' : step t = .next u) :
    Host.Core.run Sys2Proof.core 2 s = .next u := by rw [run_succ h, run_succ h', run_zero]

/-- Settles O19: in both orders the effect works on the latched operands, which the write does not reach. -/
theorem latchedOperandsShielded : Obligations.LatchedOperandsShielded := by
  intro s f off v rest hf hz hlo hhi
  have hr := regAt_operand_ne_cmd hlo hhi
  have write_first := run_two
    (step_write (s := schedule (.access (.write off v) :: .complete :: rest) s) rfl hr)
    (step_complete_inflight rfl (f := f) (by simp [hf]))
  have complete_first := run_two
    (step_complete_inflight (s := schedule (.complete :: .access (.write off v) :: rest) s) rfl hf)
    (step_write rfl hr)
  refine write_first.trans (Eq.trans ?_ complete_first.symm)
  simp only [effectOf_schedule, effectOf_writeOperand hz, writeOperand_schedule, writeOperand_freeSlot_actAs]
  rfl

/-! ### The window -/

theorem flagWord_getLsbD (b : Bool) (i : Nat) : (flagWord b).getLsbD i = (decide (i = 0) && b) := by
  cases b <;> simp [flagWord, BitVec.getLsbD_one]

/-- The bits of STATUS (R36). -/
theorem status_getLsbD (s : State) {i : Nat} (hi : i < 32) : s.status.getLsbD i =
    if i = 0 then s.busy else if i = 1 then s.err else if 4 ≤ i ∧ i < 7 then s.errcode.code.getLsbD (i - 4)
    else if i = 8 then s.hvalid else if 9 ≤ i ∧ i < 12 then s.phase.code.getLsbD (i - 9)
    else if i = 12 then s.cmpEq else false := by
  simp only [State.status, BitVec.getLsbD_or, BitVec.getLsbD_shiftLeft, BitVec.truncate_eq_setWidth,
    BitVec.getLsbD_setWidth, flagWord_getLsbD, hi]
  interval_cases i <;> simp

/-- A field of STATUS by its bits. -/
theorem status_field {s : State} {start len : Nat} {x : BitVec len}
    (h : ∀ i < len, s.status.getLsbD (start + i) = x.getLsbD i) : s.status.extractLsb' start len = x := by
  apply BitVec.eq_of_getLsbD_eq
  intro i hi
  rw [BitVec.getLsbD_extractLsb', h i hi]
  simp [hi]

theorem status_errcode (s : State) : s.status.extractLsb' 4 3 = s.errcode.code :=
  status_field fun i hi => by
    rw [status_getLsbD s (by omega)]
    interval_cases i <;> simp

theorem status_phase (s : State) : s.status.extractLsb' 9 3 = s.phase.code :=
  status_field fun i hi => by
    rw [status_getLsbD s (by omega)]
    interval_cases i <;> simp

/-- The reserved bits of STATUS read 0 (R36). -/
theorem status_reserved (s : State) : s.status.extractLsb' 2 2 = 0 ∧ s.status.extractLsb' 13 19 = 0 := by
  constructor
  all_goals
    refine status_field fun i hi => ?_
    rw [status_getLsbD s (by omega)]
    interval_cases i <;> simp

theorem errCode_code_le (c : ErrCode) : c.code.toNat ≤ 6 := by cases c <;> decide

theorem phase_code_le (p : Phase) : p.code.toNat ≤ 5 := by cases p <;> decide

/-- Settles O11: the fields by STATUS's bits, the steps by the register map. -/
theorem statusRegister : Obligations.StatusRegister := by
  refine ⟨fun s => ?_, by decide, fun s v rest ha => step_write ha (by decide), fun s rest ha => step_read ha⟩
  obtain ⟨bits_3_2, bits_31_13⟩ := status_reserved s
  have code_le := errCode_code_le s.errcode
  have phase_le := phase_code_le s.phase
  rw [← status_errcode] at code_le
  rw [← status_phase] at phase_le
  exact ⟨rfl, status_getLsbD s (by decide), status_getLsbD s (by decide), bits_3_2, status_errcode s,
    status_getLsbD s (by decide), status_getLsbD s (by decide), status_phase s, status_getLsbD s (by decide),
    bits_31_13, code_le, phase_le⟩

/-- Settles O12: a read shows the registers it names and STATUS, and STATUS shows the comparator by CMP_EQ only. -/
theorem secretsUnreadable : Obligations.SecretsUnreadable := by
  refine ⟨fun s x off => rfl, fun s u off he => hostRead_congr off rfl rfl rfl rfl rfl rfl ?_⟩
  unfold State.status
  rw [he]
  rfl

/-- Settles O22: CMD is the word at 0x04, and a legal word written there is issued in the host's turn. -/
theorem stepRunsCommand : Obligations.StepRunsCommand := by
  intro s off w i rest ha ho hd
  rw [step_cmd ha ((regAt_eq_cmd off).2 ho)]
  simp only [issueWord, hd]

end Sys2Proof.Proofs

namespace Sys2Proof.Proofs

open Sys2Proof.Machine

/-! ### Writes to OPA and OPB -/

/-- The words of a block after one of them is written (R62, R65). -/
theorem getWord_setWord (x : Block) (j k : Fin 4) (v : Word) :
    getWord (setWord x k v) j = if j = k then v else getWord x j := by
  by_cases hjk : j = k
  · rw [if_pos hjk, hjk, getWord_setWord_same]
  · rw [if_neg hjk, getWord_setWord_other x v hjk]

theorem step_write_opa {s : State} {off : Offset} {k : Fin 4} {v : Word} {rest : List Event}
    (ha : s.agenda = .access (.write off v) :: rest) (hr : regAt off = .opa k) :
    step s = .next { s with agenda := rest, opa := setWord s.opa k v } := by
  rw [step_write ha (by simp [hr]), hr]
  rfl

theorem step_write_opb {s : State} {off : Offset} {k : Fin 4} {v : Word} {rest : List Event}
    (ha : s.agenda = .access (.write off v) :: rest) (hr : regAt off = .opb k) :
    step s = .next { s with agenda := rest, opb := setWord s.opb k v } := by
  rw [step_write ha (by simp [hr]), hr]
  rfl

/-- Settles O9: the write sets word k of the register at its offset, and a set word leaves the other words. -/
theorem operandWriteChangesOneWord : Obligations.OperandWriteChangesOneWord := by
  intro s k v rest
  constructor
  · intro ha
    exact ⟨setWord s.opa k v, step_write_opa ha (regAt_opa k), fun j => getWord_setWord s.opa j k v⟩
  · intro ha
    exact ⟨setWord s.opb k v, step_write_opb ha (regAt_opb k), fun j => getWord_setWord s.opb j k v⟩

/-! ### The register map -/

theorem regAt_res (k : Fin 4) : regAt (0x30#8 + BitVec.ofNat 8 (4 * k.val)) = .res k := by revert k; decide

theorem regAt_y (k : Fin 4) : regAt (0x40#8 + BitVec.ofNat 8 (4 * k.val)) = .y k := by revert k; decide

/-- The reserved words of R61: 0x0C and everything from 0x60 on. -/
theorem regAt_eq_reserved (off : Offset) :
    regAt off = .reserved ↔ off &&& 0xFC#8 = 0x0C#8 ∨ 0x60 ≤ off.toNat := by
  revert off; decide +kernel

/-- The map depends on the word offset only (R63). -/
theorem regAt_congr {off off' : Offset} (h : off &&& 0xFC#8 = off' &&& 0xFC#8) : regAt off = regAt off' := by
  have hw : wordOffset off = wordOffset off' := h
  rw [← regAt_wordOffset off, hw, regAt_wordOffset off']

/-- A read returns the register its offset is mapped to (R62). -/
theorem hostRead_of_regAt {off : Offset} {r : Reg} (h : regAt off = r) (s : State) : hostRead off s = readReg r s := by
  rw [hostRead, h]

/-- Settles O6: the register at each offset, then that register's value. -/
theorem readMap : Obligations.ReadMap := by
  intro s
  refine ⟨hostRead_of_regAt (r := .id) (by decide) s, hostRead_of_regAt (r := .cmd) (by decide) s,
    hostRead_of_regAt (r := .status) (by decide) s, fun k => ?_,
    hostRead_of_regAt (r := .lenaHi) (by decide) s, hostRead_of_regAt (r := .lenaLo) (by decide) s,
    hostRead_of_regAt (r := .lencHi) (by decide) s, hostRead_of_regAt (r := .lencLo) (by decide) s⟩
  exact ⟨hostRead_of_regAt (regAt_opa k) s, hostRead_of_regAt (regAt_opb k) s, hostRead_of_regAt (regAt_res k) s,
    hostRead_of_regAt (regAt_y k) s⟩

/-! ### Accesses that change nothing -/

/-- A write enters a step by the register its offset is mapped to, whether that is CMD or not (R62). -/
theorem hostWrite_congr {off off' : Offset} (h : regAt off = regAt off') (v : Word) (s : State) :
    hostWrite off v s = hostWrite off' v s := by
  rw [hostWrite, hostWrite, h]

/-- Settles O7: reads and writes see an offset by the register it is mapped to. -/
theorem lowOffsetBitsIgnored : Obligations.LowOffsetBitsIgnored := by
  intro off off' h
  have hr : regAt off = regAt off' := regAt_congr h
  exact ⟨hostRead_of_regAt hr, fun s v rest => hostWrite_congr hr v (schedule rest s)⟩

/-- The words that read as 0 in every state: CMD and the reserved ones (R64). -/
theorem hostRead_eq_zero {off : Offset}
    (h : off &&& 0xFC#8 = 0x04#8 ∨ off &&& 0xFC#8 = 0x0C#8 ∨ 0x60 ≤ off.toNat) (s : State) : hostRead off s = 0 := by
  obtain hcmd | hres := h
  · exact hostRead_of_regAt ((regAt_eq_cmd off).2 hcmd) s
  · exact hostRead_of_regAt ((regAt_eq_reserved off).2 hres) s

/-- Settles O8: a write outside CMD reaches OPA and OPB only, and the words without a value read as 0. -/
theorem ignoredOffsets : Obligations.IgnoredOffsets := by
  constructor
  · intro s off v rest ha hcmd hrange
    rw [step_write ha (mt (regAt_eq_cmd off).1 hcmd)]
    obtain ⟨hlo, hhi, -⟩ | ⟨hlo, hhi, -⟩ | hn := writeOperand_cases off v s
    · exact absurd ⟨hlo, by omega⟩ hrange
    · exact absurd ⟨by omega, by omega⟩ hrange
    · rw [hn]
      rfl
  · intro s off rest ha h
    rw [step_read ha, readStep, hostRead_eq_zero h]
    rfl

/-- What is scheduled does not enter a read. -/
@[simp] theorem hostRead_schedule (off : Offset) (rest : List Event) (s : State) :
    hostRead off (schedule rest s) = hostRead off s :=
  hostRead_congr off rfl rfl rfl rfl rfl rfl rfl

/-- A read does not enter a later read (R68). -/
@[simp] theorem hostRead_readStep (off off' : Offset) (s : State) :
    hostRead off' (readStep off s) = hostRead off' s :=
  hostRead_congr off' rfl rfl rfl rfl rfl rfl rfl

/-- Settles O10: the step of a read writes the read data port, and no read depends on that port. -/
theorem readHasNoSideEffect : Obligations.ReadHasNoSideEffect := by
  intro s off rest ha
  refine ⟨readStep off (schedule rest s), step_read ha, ?_, rfl, rfl, fun off' => ?_⟩
  · rw [readStep_rdata, hostRead_schedule]
  · rw [hostRead_readStep, hostRead_schedule]

end Sys2Proof.Proofs

namespace Sys2Proof.Proofs

open Sys2Proof.Machine

/-! ### The command word -/

/-- The fields of an encoded word, for every command (R81). -/
theorem encode_fields : ∀ i : Instr, Laws.EncodedFields.Statement i
  | .nop => Laws.EncodedFields.nop
  | .gfMul => Laws.EncodedFields.gfMul
  | .gfAdd => Laws.EncodedFields.gfAdd
  | .zero => Laws.EncodedFields.zero
  | .clrErr => Laws.EncodedFields.clrErr
  | .ghSeth => Laws.EncodedFields.ghSeth
  | .ghInit => Laws.EncodedFields.ghInit
  | .ghAad n => Laws.EncodedFields.ghAad n
  | .ghCt n => Laws.EncodedFields.ghCt n
  | .ghFinal => Laws.EncodedFields.ghFinal
  | .ctClear => Laws.EncodedFields.ctClear
  | .ctLen => Laws.EncodedFields.ctLen
  | .ctFeed n => Laws.EncodedFields.ctFeed n

/-- A word with the opcode and the count of `i` and RSVD = 0 decodes to `i`: the converse of `decode_fields`. -/
theorem decode_of_fields {w : Word} {i : Instr}
    (h : opcField w = i.opcode ∧ countField w = i.count ∧ rsvdField w = 0) : decode w = .ok i := by
  obtain ⟨hopc, hcount, hrsvd⟩ := h
  unfold decode
  rw [hopc, hcount, hrsvd]
  cases i <;> rfl

/-- Settles O1: a word that holds the fields of `i` decodes to `i`, and `encode i` holds them. -/
theorem decodeOfEncode : Obligations.DecodeOfEncode := fun i => decode_of_fields (encode_fields i)

/-- Settles O2: `w` and `encode i` both hold the fields of `i`, and a word is its fields. -/
theorem encodeOfDecode : Obligations.EncodeOfDecode := by
  intro w i h
  obtain ⟨hopc, hcount, hrsvd⟩ := decode_fields h
  obtain ⟨hopc', hcount', hrsvd'⟩ := encode_fields i
  exact word_ext (hopc'.trans hopc.symm) (hcount'.trans hcount.symm) (hrsvd'.trans hrsvd.symm)

/-! ### Illegal words -/

/-- The rows of R83 whose "uses N" column says yes. -/
def countedOpcodes : List (BitVec 8) := [0x12#8, 0x13#8, 0x22#8]

/-- The rows of R83 whose "uses N" column says no. -/
def plainOpcodes : List (BitVec 8) :=
  [0x00#8, 0x01#8, 0x02#8, 0x0E#8, 0x0F#8, 0x10#8, 0x11#8, 0x14#8, 0x20#8, 0x21#8]

theorem countedCommand_eq_none (opc : BitVec 8) (n : Count) :
    countedCommand opc n = none ↔ opc ∉ countedOpcodes := by
  simp [countedCommand, countedOpcodes, ite_eq_iff]

theorem plainCommand_eq_none (opc : BitVec 8) : plainCommand opc = none ↔ opc ∉ plainOpcodes := by
  simp [plainCommand, plainOpcodes, ite_eq_iff]

/-- When `decode` refuses a word, by the tables it looks the opcode up in (R86). -/
theorem decode_error_iff (w : Word) : (∃ e, decode w = .error e) ↔
    rsvdField w ≠ 0 ∨
    opcField w ∉ countedOpcodes ∧ (opcField w ∉ plainOpcodes ∨ countField w ≠ 0) := by
  rw [← countedCommand_eq_none _ (countField w), ← plainCommand_eq_none]
  unfold decode
  by_cases hrsvd : rsvdField w = 0#19
  · cases hc : countedCommand (opcField w) (countField w) with
    | some i => simp [hrsvd]
    | none =>
      cases hp : plainCommand (opcField w) with
      | none => simp [hrsvd]
      | some i => by_cases hn : countField w = 0#5 <;> simp [hrsvd, hn]
  · simp [hrsvd]

/-- The assigned opcodes are those of the two tables. -/
theorem mem_assignedOpcodes (opc : BitVec 8) :
    opc ∈ [0x00#8, 0x01#8, 0x02#8, 0x0E#8, 0x0F#8, 0x10#8, 0x11#8, 0x12#8, 0x13#8, 0x14#8, 0x20#8, 0x21#8, 0x22#8] ↔
      opc ∈ plainOpcodes ∨ opc ∈ countedOpcodes := by
  revert opc; decide +kernel

theorem not_mem_countedOpcodes : ∀ opc ∈ plainOpcodes, opc ∉ countedOpcodes := by decide

/-- The three causes of R84. -/
theorem decode_error_iff_causes (w : Word) : (∃ e, decode w = .error e) ↔
    ¬(opcField w ∈ plainOpcodes ∨ opcField w ∈ countedOpcodes) ∨ rsvdField w ≠ 0 ∨
    (countField w ≠ 0 ∧ opcField w ∈ plainOpcodes) := by
  have := not_mem_countedOpcodes (opcField w)
  rw [decode_error_iff]
  tauto

/-- A write of an illegal word to CMD records an error, BUSY before ILLEGAL (R182, R190). -/
theorem step_illegal {s : State} {off : Offset} {w : Word} {e : DecodeError} {rest : List Event}
    (ha : s.agenda = .access (.write off w) :: rest) (ho : off &&& 0xFC#8 = 0x04#8) (hd : decode w = .error e) :
    step s = .next (raise (if s.inflight = none then .illegal else .busy) (actAs .host (schedule rest s))) := by
  rw [step_cmd ha ((regAt_eq_cmd off).2 ho), issueWord_illegal hd, issueIllegal_eq]
  rfl

/-- Settles O3: the causes by the decoder's two tables, the step by the error-recording action. -/
theorem illegalWords : Obligations.IllegalWords := by
  constructor
  · intro w
    rw [mem_assignedOpcodes]
    exact decode_error_iff_causes w
  · intro s off w e rest ha ho hd
    rw [step_illegal ha ho hd, raise_eq]
    simp only [ne_eq, ite_not]
    rfl

/-! ### Selection by mask and match -/

/-- Two words are equal when they agree in every field: `word_ext` both ways. -/
theorem word_ext_iff (w v : Word) :
    w = v ↔ opcField w = opcField v ∧ countField w = countField v ∧ rsvdField w = rsvdField v :=
  ⟨fun h => h ▸ ⟨rfl, rfl, rfl⟩, fun ⟨hopc, hcount, hrsvd⟩ => word_ext hopc hcount hrsvd⟩

theorem fields_and (w m : Word) :
    opcField (w &&& m) = opcField w &&& opcField m ∧ countField (w &&& m) = countField w &&& countField m ∧
    rsvdField (w &&& m) = rsvdField w &&& rsvdField m :=
  ⟨BitVec.extractLsb'_and, BitVec.extractLsb'_and, BitVec.extractLsb'_and⟩

/-- An opcode as a word of R83's match column: N and RSVD are 0. -/
theorem fields_setWidth (opc : BitVec 8) :
    opcField (opc.setWidth 32) = opc ∧ countField (opc.setWidth 32) = 0 ∧ rsvdField (opc.setWidth 32) = 0 := by
  revert opc; decide +kernel

/-- The mask of a counted command compares OPC and RSVD. -/
theorem match_countedMask (w : Word) (opc : BitVec 8) :
    w &&& 0xFFFF_E0FF#32 = opc.setWidth 32 ↔ opcField w = opc ∧ rsvdField w = 0 := by
  obtain ⟨hopc, hcount, hrsvd⟩ := fields_and w 0xFFFF_E0FF#32
  obtain ⟨hopc', hcount', hrsvd'⟩ := fields_setWidth opc
  have mask_opc : opcField 0xFFFF_E0FF#32 = BitVec.allOnes 8 := by decide
  have mask_count : countField 0xFFFF_E0FF#32 = 0 := by decide
  have mask_rsvd : rsvdField 0xFFFF_E0FF#32 = BitVec.allOnes 19 := by decide
  rw [word_ext_iff, hopc, hcount, hrsvd, hopc', hcount', hrsvd', mask_opc, mask_count, mask_rsvd,
    BitVec.and_allOnes, BitVec.and_allOnes]
  simp

/-- The mask of a command without a count compares the whole word. -/
theorem match_plainMask (w : Word) (opc : BitVec 8) :
    w &&& 0xFFFF_FFFF#32 = opc.setWidth 32 ↔ opcField w = opc ∧ countField w = 0 ∧ rsvdField w = 0 := by
  obtain ⟨hopc, hcount, hrsvd⟩ := fields_setWidth opc
  have mask_all : w &&& 0xFFFF_FFFF#32 = w := BitVec.and_allOnes
  rw [mask_all, word_ext_iff, hopc, hcount, hrsvd]

/-- A command's row has the counted mask and takes every count, or the plain mask and the count 0 (R82, R83). -/
theorem mask_cases (i : Instr) :
    (i.mask = 0xFFFF_E0FF#32 ∧ ∀ n, ∃ j : Instr, j.opcode = i.opcode ∧ j.count = n) ∨
    (i.mask = 0xFFFF_FFFF#32 ∧ i.count = 0) := by
  cases i with
  | ghAad _ => exact .inl ⟨rfl, fun n => ⟨.ghAad n, rfl, rfl⟩⟩
  | ghCt _ => exact .inl ⟨rfl, fun n => ⟨.ghCt n, rfl, rfl⟩⟩
  | ctFeed _ => exact .inl ⟨rfl, fun n => ⟨.ctFeed n, rfl, rfl⟩⟩
  | _ => exact .inr ⟨rfl, rfl⟩

/-- Settles O4: each mask by the fields it compares, which are the fields `decode` looks at. -/
theorem selectionByMask : Obligations.SelectionByMask := by
  constructor
  · intro w i hd
    obtain ⟨hopc, hcount, hrsvd⟩ := decode_fields hd
    obtain ⟨hm, -⟩ | ⟨hm, hzero⟩ := mask_cases i
    · rw [hm]
      exact (match_countedMask w i.opcode).2 ⟨hopc, hrsvd⟩
    · rw [hm]
      exact (match_plainMask w i.opcode).2 ⟨hopc, hcount.trans hzero, hrsvd⟩
  · intro w i h
    obtain ⟨hm, hany⟩ | ⟨hm, hzero⟩ := mask_cases i
    · rw [hm] at h
      obtain ⟨hopc, hrsvd⟩ := (match_countedMask w i.opcode).1 h
      obtain ⟨j, hj, hn⟩ := hany (countField w)
      exact ⟨j, decode_of_fields ⟨hopc.trans hj.symm, hn.symm, hrsvd⟩, hj, hn⟩
    · rw [hm] at h
      obtain ⟨hopc, hcount, hrsvd⟩ := (match_plainMask w i.opcode).1 h
      exact ⟨i, decode_of_fields ⟨hopc, hcount.trans hzero.symm, hrsvd⟩, rfl, hzero.trans hcount.symm⟩

/-- Settles O5: each legal word is the encoding of its command, and each illegal one shows its cause. -/
theorem decodesWordsOfTheMap : Obligations.DecodesWordsOfTheMap :=
  ⟨decodeOfEncode .gfMul, decodeOfEncode .zero, decodeOfEncode .ghInit, decodeOfEncode (.ghAad 16),
    decodeOfEncode (.ghCt 12), decodeOfEncode .ctLen, decodeOfEncode (.ctFeed 16), decodeOfEncode (.ghAad 31),
    rfl, rfl, rfl⟩

end Sys2Proof.Proofs

namespace Sys2Proof.Proofs

open Sys2Proof.Machine Sys2Proof.Reference
open Polynomial

/-! ### The field product, by the elements blocks stand for -/

/-- R103: the product of two blocks stands for the product of their elements modulo P. -/
theorem elem_gfmul (a b : Block) : elem (gfmul a b) = (elem a * elem b) %ₘ fieldPoly := elem_gfmulAcc a b 128

/-- `mul_reduced` on the left factor. -/
theorem reduced_mul (p q : (ZMod 2)[X]) : ((p %ₘ fieldPoly) * q) %ₘ fieldPoly = (p * q) %ₘ fieldPoly := by
  rw [mul_comm, mul_reduced, mul_comm]

/-- Bit 127 - i of a block is the coefficient of x^i (R100). -/
theorem elem_twoPow {i : Nat} (hi : i < 128) : elem (BitVec.twoPow 128 (127 - i)) = X ^ i := by
  ext j
  rw [elem_coeff, BitVec.getLsbD_twoPow, coeff_X_pow]
  refine if_congr ?_ rfl rfl
  rw [Bool.and_eq_true, decide_eq_true_eq, decide_eq_true_eq]
  omega

/-- `0x80..00` stands for 1 (R100). -/
theorem elem_one : elem 0x80000000000000000000000000000000#128 = 1 := elem_twoPow (i := 0) (by decide)

theorem gfmul_comm (a b : Block) : gfmul a b = gfmul b a := by
  apply elem_injective
  rw [elem_gfmul, elem_gfmul, mul_comm]

theorem gfmul_assoc (a b c : Block) : gfmul (gfmul a b) c = gfmul a (gfmul b c) := by
  apply elem_injective
  rw [elem_gfmul, elem_gfmul a b, reduced_mul, elem_gfmul, elem_gfmul b c, mul_reduced, mul_assoc]

theorem gfmul_xor (a b c : Block) : gfmul a (b ^^^ c) = gfmul a b ^^^ gfmul a c := by
  apply elem_injective
  rw [elem_xor, elem_gfmul, elem_gfmul, elem_gfmul, elem_xor, mul_add, add_modByMonic]

theorem gfmul_one (a : Block) : gfmul a 0x80000000000000000000000000000000#128 = a := by
  apply elem_injective
  rw [elem_gfmul, elem_one, mul_one, elem_reduced]

theorem gfmul_zero (a : Block) : gfmul a 0 = 0 := by
  apply elem_injective
  rw [elem_gfmul, elem_zero, mul_zero, zero_modByMonic]

/-- Settles O50: the sum by `elem_xor`, the three constants by their one set bit. -/
theorem fieldSum : Obligations.FieldSum := by
  refine ⟨fun a b => ⟨rfl, elem_xor a b⟩, ⟨elem_one, ?_, ?_⟩, fun v w => elem_injective⟩
  · exact (elem_twoPow (i := 1) (by decide)).trans (pow_one X)
  · exact elem_twoPow (i := 127) (by decide)

/-- Settles O51: `gfmul a b` stands for the product, and no other block stands for the same element. -/
theorem fieldProduct : Obligations.FieldProduct := by
  intro a b v
  rw [← elem_gfmul]
  exact ⟨congrArg elem, elem_injective⟩

/-- Settles O52: the laws of the product modulo P, carried to blocks by `elem_injective`. -/
theorem fieldLaws : Obligations.FieldLaws := fun a b c =>
  ⟨gfmul_comm a b, gfmul_assoc a b c, gfmul_xor a b c, gfmul_one a, gfmul_zero a⟩

/-! ### GF_MUL and GF_ADD at completion -/

/-- The command in flight, in the engine's turn: its effect, and the slot freed (R191). -/
theorem exec_inflight {i : Instr} {a b : Block} {s : State} (ht : s.turn = .engine)
    (hf : s.inflight = some ⟨i, a, b⟩) : exec i s = .next (freeSlot (effectOf i a b s)) := by
  rw [exec_engine i ht, finish_inflight hf]

/-- Settles O37: the effect is the bit-serial product, which stands for the product modulo P. -/
theorem gfMulCompletes : Obligations.GfMulCompletes := by
  intro s a b ht hf
  exact ⟨gfmul a b, exec_inflight ht hf, elem_gfmul a b⟩

/-- Settles O38: the effect is the exclusive-or of the latched operands. -/
theorem gfAddCompletes : Obligations.GfAddCompletes := fun _ _ _ ht hf => exec_inflight ht hf

/-- RES is all that GF_MUL and GF_ADD write (R106, R107). -/
theorem effectOf_fieldCommand {i : Instr} (hi : i = .gfMul ∨ i = .gfAdd) (a b : Block) (s : State) :
    ∃ v, effectOf i a b s = { s with res := v } := by
  obtain rfl | rfl := hi
  · exact ⟨gfmul a b, rfl⟩
  · exact ⟨gfadd a b, rfl⟩

/-- STATUS is the word at offset 0x08 and no other (R61). -/
theorem regAt_eq_status (off : Offset) : regAt off = .status ↔ off &&& 0xFC#8 = 0x08#8 := by
  revert off; decide +kernel

/-- The offsets of R61 that are mapped to RES. -/
theorem regAt_res_range (off : Offset) : (∃ k, regAt off = .res k) ↔ 0x30 ≤ off.toNat ∧ off.toNat < 0x40 := by
  revert off; decide +kernel

/-- RES and the slot show in the words of RES and in STATUS only. -/
theorem readReg_freeSlot_res {r : Reg} (hres : ∀ k, r ≠ .res k) (hstatus : r ≠ .status) (v : Block) (s : State) :
    readReg r (freeSlot { s with res := v }) = readReg r s := by
  cases r with
  | res k => exact absurd rfl (hres k)
  | status => exact absurd rfl hstatus
  | _ => rfl

/-- STATUS of a busy block and of the same block with the slot free differ in BUSY only (R34, R36). -/
theorem status_freeSlot {s : State} (hb : s.busy = true) : (freeSlot s).status ||| 1 = s.status := by
  apply BitVec.eq_of_getLsbD_eq
  intro i hi
  rw [BitVec.getLsbD_or, status_getLsbD _ hi, status_getLsbD _ hi]
  by_cases h0 : i = 0
  · simp [h0, hb]
  · simp [h0, State.err, State.cmpEq, BitVec.getLsbD_one]

/-- Settles O47: the completed state differs from the busy one in RES and in the slot, which the words of RES and BUSY
show and no other. -/
theorem fieldCommandsWriteNoFlag : Obligations.FieldCommandsWriteNoFlag := by
  intro s t a b i hi ht hf he
  obtain ⟨v, hv⟩ := effectOf_fieldCommand hi a b s
  rw [exec_inflight ht hf, hv] at he
  cases he
  have hbusy : s.busy = true := by rw [State.busy, hf]; rfl
  refine ⟨fun off hres hstatus => ?_, status_freeSlot hbusy, status_getLsbD _ (by decide)⟩
  have not_res : ∀ k, regAt off ≠ .res k := fun k hk => hres ((regAt_res_range off).1 ⟨k, hk⟩)
  exact readReg_freeSlot_res not_res (mt (regAt_eq_status off).1 hstatus) v s

end Sys2Proof.Proofs

namespace Sys2Proof.Proofs

open Sys2Proof.Machine Sys2Proof.Reference

/-! ### The GHASH commands at completion -/

/-- Settles O41: the two effects, and the slot freed. -/
theorem ghSethAndGhInitComplete : Obligations.GhSethAndGhInitComplete := fun _ _ _ ht =>
  ⟨exec_inflight ht, exec_inflight ht⟩

/-- Settles O42: the block absorbed is the padded operand, and the counter does not pass its bound. -/
theorem ghAadCompletes : Obligations.GhAadCompletes := by
  intro s n a b ht hf hpos hle hbound
  refine ⟨pad n a, s.lena + bitCount n, blockByte_pad hpos hle a, add_bitCount hbound, ?_⟩
  simp only [exec_inflight ht hf, effectOf, effectGhAad, freeSlot, absorb, count_eq_sixteen]

/-- Settles O43: as for GH_AAD, on the ciphertext's counter. -/
theorem ghCtCompletes : Obligations.GhCtCompletes := by
  intro s n a b ht hf hpos hle hbound
  refine ⟨pad n a, s.lenc + bitCount n, blockByte_pad hpos hle a, add_bitCount hbound, ?_⟩
  simp only [exec_inflight ht hf, effectOf, effectGhCt, freeSlot, absorb, count_eq_sixteen]

/-- The two halves of the length block (R122). -/
theorem lengthBlock_halves (lena lenc : Length) :
    (lengthBlock lena lenc).extractLsb' 64 64 = lena ∧ (lengthBlock lena lenc).extractLsb' 0 64 = lenc :=
  ⟨BitVec.extractLsb'_append_eq_left, BitVec.extractLsb'_append_eq_right⟩

/-- Settles O44: the block absorbed is the length block. -/
theorem ghFinalCompletes : Obligations.GhFinalCompletes := by
  intro s a b ht hf
  obtain ⟨hhi, hlo⟩ := lengthBlock_halves s.lena s.lenc
  refine ⟨lengthBlock s.lena s.lenc, hhi, hlo, ?_⟩
  simp only [exec_inflight ht hf, effectOf, effectGhFinal, freeSlot, absorb]

/-! ### Filler bytes -/

/-- `pad_n` sees the first n bytes only (R121). -/
theorem pad_congr {n : Count} (hpos : 1 ≤ n.toNat) (hle : n.toNat ≤ 16) {v w : Block}
    (h : ∀ j < n.toNat, blockByte v j = blockByte w j) : pad n v = pad n w := by
  apply block_ext_bytes
  intro j hj
  rw [blockByte_pad hpos hle v j hj, blockByte_pad hpos hle w j hj]
  split
  · next hjn => exact h j hjn
  · rfl

/-- The slot does not enter an effect, which frees it after. -/
theorem freeSlot_effectOf_inflight (i : Instr) (a b : Block) (x : Option Inflight) (s : State) :
    freeSlot (effectOf i a b { s with inflight := x }) = freeSlot (effectOf i a b s) := by
  cases i with
  | ghAad n => simp only [effectOf, effectGhAad, freeSlot, absorb]
  | ghCt n => simp only [effectOf, effectGhCt, freeSlot, absorb]
  | ghFinal => simp only [effectOf, effectGhFinal, freeSlot, absorb]
  | _ => rfl

/-- `exec_inflight` for the command that is put in flight. -/
theorem exec_put_inflight {s : State} (ht : s.turn = .engine) (i : Instr) (a b : Block) :
    exec i { s with inflight := some ⟨i, a, b⟩ } = .next (freeSlot (effectOf i a b s)) :=
  (exec_inflight (s := { s with inflight := some ⟨i, a, b⟩ }) ht rfl).trans
    (congrArg Host.Outcome.next (freeSlot_effectOf_inflight i a b _ s))

/-- Settles O49: each of the three effects sees its operands through `pad_n`. -/
theorem fillerBytesIgnored : Obligations.FillerBytesIgnored := by
  intro s n a a' b b' ht hpos hle ha
  have hpad : pad n a = pad n a' := pad_congr hpos hle ha
  simp only [exec_put_inflight ht, effectOf]
  refine ⟨?_, ?_, fun hb => ?_⟩
  · simp only [effectGhAad, hpad]
  · simp only [effectGhCt, hpad]
  · have hdiff : pad n (a ^^^ b) = pad n (a' ^^^ b') := pad_congr hpos hle fun j hj => by
      rw [blockByte_xor, blockByte_xor, ha j hj, hb j hj]
    simp only [effectCtFeed, hdiff]

/-! ### The command sequence of R129 -/

/-- Sequences taken one after another, with an invariant that each keeps. -/
theorem goes_flatMap_range {es : Nat → List Event} {P : Nat → State → Prop} {k : Nat}
    (hstep : ∀ j < k, ∀ s, P j s → ∃ t, Goes (es j) s t ∧ P (j + 1) t) {s : State} (h0 : P 0 s) :
    ∃ t, Goes ((List.range k).flatMap es) s t ∧ P k t := by
  induction k with
  | zero => exact ⟨s, goes_nil s, h0⟩
  | succ k ih =>
    obtain ⟨t, hst, ht⟩ := ih fun j hj => hstep j (by omega)
    obtain ⟨u, htu, hu⟩ := hstep k (by omega) t ht
    rw [List.range_succ, List.flatMap_append, List.flatMap_singleton]
    exact ⟨u, goes_append hst htu, hu⟩

/-- A block loaded into OPA, and then the command that absorbs it. -/
theorem goes_load_perform {i : Instr} {v : Block} {s : State} (hf : s.inflight = none) (he : s.errcode = .noError)
    (hc : checkOf i s = none) (hcl : clearsError i = false) :
    Goes (writeBlock 0x10 v ++ perform i) s
      (freeSlot (effectOf i v s.opb (actAs .engine { s with opa := v }))) :=
  goes_append (goes_writeBlock_opa v s)
    (goes_perform (s := { s with opa := v }) (decodeOfEncode i) hf he
      ((checkOf_congr i rfl rfl rfl rfl rfl rfl).trans hc) hcl)

/-- Between two commands of a message: subkey `h`, accumulator `y`, `la` and `lc` bits absorbed. -/
structure MidMessage (h y : Block) (la lc : Nat) (p : Phase) (s : State) : Prop where
  quiet : s.inflight = none
  noError : s.errcode = .noError
  subkey : s.h = h
  acc : s.y = y
  lena : s.lena.toNat = la
  lenc : s.lenc.toNat = lc
  phase : s.phase = p

/-! ### One chunk -/

section
variable {bs : List Byte} (hle : bs.length ≤ 16)
include hle

/-- The length of a chunk fits the N field (R82). -/
theorem count_length : (BitVec.ofNat 5 bs.length).toNat = bs.length := Nat.mod_eq_of_lt (by omega)

/-- A chunk is the block it is loaded as: its filler is already 0. -/
theorem pad_chunk (hpos : 0 < bs.length) : pad (BitVec.ofNat 5 bs.length) (blockValue bs) = blockValue bs := by
  have hn := count_length hle
  exact pad_blockValue (by omega) (by omega) hn.ge

theorem add_bitCount_length {l : Length} (hbound : l.toNat + 8 * bs.length ≤ 2 ^ 64 - 1) :
    (l + bitCount (BitVec.ofNat 5 bs.length)).toNat = l.toNat + 8 * bs.length := by
  rw [← count_length hle] at hbound
  rw [add_bitCount hbound, count_length hle]

theorem count_length_eq_sixteen : BitVec.ofNat 5 bs.length = 16 ↔ bs.length = 16 := by
  rw [count_eq_sixteen, count_length hle]

end

/-- `cmd` absorbs one chunk of its section of the message: from `first` (the phase the section is entered in) or `whole`
it goes to `whole` or `part`, by the chunk's length. `M` is the state of the message, by the accumulator, the bits of
the section absorbed and the phase. -/
def AbsorbsChunks (cmd : Count → Instr) (h : Block) (M : Block → Nat → Phase → State → Prop)
    (first whole part : Phase) : Prop :=
  ∀ (bs : List Byte) (y : Block) (len : Nat) (p : Phase) (s : State),
    0 < bs.length → bs.length ≤ 16 → p = first ∨ p = whole → M y len p s → len + 8 * bs.length ≤ 2 ^ 64 - 1 →
    ∃ t, Goes (writeBlock 0x10 (blockValue bs) ++ perform (cmd (BitVec.ofNat 5 bs.length))) s t ∧
      M (gfmul (y ^^^ blockValue bs) h) (len + 8 * bs.length) (if bs.length = 16 then whole else part) t

theorem ghAad_absorbsChunks (h : Block) :
    AbsorbsChunks .ghAad h (fun y la p => MidMessage h y la 0 p) .aad .aad .aadp := by
  intro bs y la p s hpos hle hp hs hbound
  obtain ⟨hf, he, rfl, rfl, rfl, hlc, rfl⟩ := hs
  have hc : checkGhAad (BitVec.ofNat 5 bs.length) s = none :=
    checkGhAad_eq_none.2 (by rw [count_length hle]; exact ⟨⟨hpos, hle⟩, hp.elim id id, hbound⟩)
  refine ⟨_, goes_load_perform (i := .ghAad _) hf he hc rfl, rfl, he, rfl, ?_, add_bitCount_length hle hbound, hlc,
    if_congr (count_length_eq_sixteen hle) rfl rfl⟩
  simp only [effectOf, effectGhAad, freeSlot, absorb, actAs, pad_chunk hle hpos]

theorem ghCt_absorbsChunks (h : Block) (la : Nat) {first : Phase} (hfirst : first = .aad ∨ first = .aadp) :
    AbsorbsChunks .ghCt h (fun y lc p => MidMessage h y la lc p) first .ct .ctp := by
  intro bs y lc p s hpos hle hp hs hbound
  obtain ⟨hf, he, rfl, rfl, hla, rfl, rfl⟩ := hs
  have hphase : s.phase = .aad ∨ s.phase = .aadp ∨ s.phase = .ct := by
    obtain hp | hp := hp
    · exact (hp ▸ hfirst).imp_right .inl
    · exact .inr (.inr hp)
  have hc : checkGhCt (BitVec.ofNat 5 bs.length) s = none :=
    checkGhCt_eq_none.2 (by rw [count_length hle]; exact ⟨⟨hpos, hle⟩, hphase, hbound⟩)
  refine ⟨_, goes_load_perform (i := .ghCt _) hf he hc rfl, rfl, he, rfl, ?_, hla, add_bitCount_length hle hbound,
    if_congr (count_length_eq_sixteen hle) rfl rfl⟩
  simp only [effectOf, effectGhCt, freeSlot, absorb, actAs, pad_chunk hle hpos]

/-! ### A section of the message: all chunks of one byte string -/

theorem lt_chunkCount_iff (d : List Byte) (j : Nat) : j < chunkCount d ↔ 16 * j < d.length := by
  unfold chunkCount
  omega

/-- The accumulator after the first `j` chunks of `d` (R120): for all of them it is `ghashSection`, by definition. -/
def absorbed (h y : Block) (d : List Byte) (j : Nat) : Block :=
  (List.range j).foldl (fun y j => gfmul (y ^^^ blockValue (chunk d j)) h) y

theorem absorbed_succ (h y : Block) (d : List Byte) (j : Nat) :
    absorbed h y d (j + 1) = gfmul (absorbed h y d j ^^^ blockValue (chunk d j)) h := by
  simp only [absorbed, List.range_succ, List.foldl_append, List.foldl_cons, List.foldl_nil]

/-- The bits in the first `j` chunks of `d`: the last chunk may be partial. -/
def bitsBefore (d : List Byte) (j : Nat) : Nat := 8 * min (16 * j) d.length

theorem bitsBefore_succ (d : List Byte) (j : Nat) :
    bitsBefore d (j + 1) = bitsBefore d j + 8 * (chunk d j).length := by
  rw [bitsBefore, bitsBefore, chunk_length]
  omega

theorem bitsBefore_le (d : List Byte) (j : Nat) : bitsBefore d j ≤ 8 * d.length := by
  unfold bitsBefore
  omega

theorem bitsBefore_chunkCount (d : List Byte) : bitsBefore d (chunkCount d) = 8 * d.length := by
  unfold bitsBefore chunkCount
  omega

/-- PHASE after the first `j` chunks of `d` (R126, R127). -/
def sectionPhase (first whole part : Phase) (d : List Byte) (j : Nat) : Phase :=
  if j = 0 then first else if 16 * j ≤ d.length then whole else part

section
variable (first whole part : Phase) (d : List Byte) (j : Nat)

theorem sectionPhase_succ :
    sectionPhase first whole part d (j + 1) = if (chunk d j).length = 16 then whole else part := by
  rw [sectionPhase, if_neg (by omega), chunk_length]
  exact if_congr (by omega) rfl rfl

/-- Only the last chunk of `d` can be partial. -/
theorem sectionPhase_of_lt (hj : 16 * j < d.length) :
    sectionPhase first whole part d j = first ∨ sectionPhase first whole part d j = whole := by
  rw [sectionPhase, if_pos hj.le]
  split_ifs <;> simp

theorem sectionPhase_cases : sectionPhase first whole part d j = first ∨ sectionPhase first whole part d j = whole ∨
    sectionPhase first whole part d j = part := by
  unfold sectionPhase
  split_ifs <;> simp

end

/-- Every chunk of `d` in turn: the accumulator is that of R120's inner loop. -/
theorem goes_absorbAll {cmd : Count → Instr} {h : Block} {M : Block → Nat → Phase → State → Prop}
    {first whole part : Phase} (hcmd : AbsorbsChunks cmd h M first whole part) {d : List Byte}
    (hd : 8 * d.length ≤ 2 ^ 64 - 1) {y : Block} {s : State} (hs : M y 0 first s) :
    ∃ t, Goes (absorbAll cmd d) s t ∧
      M (ghashSection h y d) (8 * d.length) (sectionPhase first whole part d (chunkCount d)) t := by
  rw [← bitsBefore_chunkCount d]
  refine goes_flatMap_range
    (P := fun j => M (absorbed h y d j) (bitsBefore d j) (sectionPhase first whole part d j)) ?_ ?_
  · intro j hj t ht
    have hlt := (lt_chunkCount_iff d j).1 hj
    have hbound : bitsBefore d j + 8 * (chunk d j).length ≤ 2 ^ 64 - 1 :=
      bitsBefore_succ d j ▸ (bitsBefore_le d (j + 1)).trans hd
    rw [absorbed_succ, bitsBefore_succ, sectionPhase_succ]
    exact hcmd (chunk d j) _ _ _ t (by rw [chunk_length]; omega) (by rw [chunk_length]; omega)
      (sectionPhase_of_lt first whole part d j hlt) ht hbound
  · simpa [absorbed, bitsBefore, sectionPhase] using hs

/-! ### The whole sequence -/

/-- A message is started by GH_INIT (R125). -/
theorem goes_ghInit {s : State} {h : Block} (hs : s.CleanEntry) (hk : s.KeyLoaded h) :
    ∃ t, Goes (perform .ghInit) s t ∧ MidMessage h 0 0 0 .aad t := by
  obtain ⟨hf, he⟩ := hs
  obtain ⟨hv, hh⟩ := hk
  exact ⟨_, goes_perform (decodeOfEncode .ghInit) hf he (checkGhInit_eq_none.2 hv) rfl, rfl, he, hh, rfl, rfl, rfl, rfl⟩

/-- A message is closed by the length block, in whatever phase it was left (R128). -/
theorem goes_ghFinal {s : State} {h y : Block} {la lc : Nat} {p : Phase} (hs : MidMessage h y la lc p s)
    (hp : p = .aad ∨ p = .aadp ∨ p = .ct ∨ p = .ctp) :
    ∃ t, Goes (perform .ghFinal) s t ∧
      MidMessage h (gfmul (y ^^^ (BitVec.ofNat 64 la ++ BitVec.ofNat 64 lc)) h) la lc .done t := by
  obtain ⟨hf, he, rfl, rfl, rfl, rfl, rfl⟩ := hs
  refine ⟨_, goes_perform (decodeOfEncode .ghFinal) hf he (checkGhFinal_eq_none.2 hp) rfl, rfl, he, rfl, ?_, rfl, rfl,
    rfl⟩
  simp only [effectOf, effectGhFinal, freeSlot, absorb, actAs, lengthBlock, BitVec.ofNat_toNat, BitVec.setWidth_eq]

/-- The sequence of R129, from any state that may start it. -/
theorem goes_ghashSequence {s : State} {h : Block} {a c : List Byte} (hs : s.CleanEntry) (hk : s.KeyLoaded h)
    (ha : 8 * a.length ≤ 2 ^ 64 - 1) (hc : 8 * c.length ≤ 2 ^ 64 - 1) :
    ∃ t, Goes (ghashSequence a c) s t ∧ MidMessage h (ghash h a c) (8 * a.length) (8 * c.length) .done t := by
  obtain ⟨s₁, g₁, h₁⟩ := goes_ghInit hs hk
  obtain ⟨s₂, g₂, h₂⟩ := goes_absorbAll (ghAad_absorbsChunks h) ha h₁
  have aad_phase : sectionPhase .aad .aad .aadp a (chunkCount a) = .aad ∨
      sectionPhase .aad .aad .aadp a (chunkCount a) = .aadp :=
    (sectionPhase_cases ..).elim .inl id
  obtain ⟨s₃, g₃, h₃⟩ := goes_absorbAll (ghCt_absorbsChunks h (8 * a.length) aad_phase) hc h₂
  have ct_phase := sectionPhase_cases (sectionPhase .aad .aad .aadp a (chunkCount a)) .ct .ctp c (chunkCount c)
  obtain ⟨s₄, g₄, h₄⟩ := goes_ghFinal h₃ (by
    obtain hp | hp := ct_phase
    · exact (hp ▸ aad_phase).imp_right .inl
    · exact .inr (.inr hp))
  exact ⟨s₄, goes_append g₁ (goes_append g₂ (goes_append g₃ g₄)), h₄⟩

/-- Settles O53: the sequence goes through with every command accepted, one invariant for each section's chunks. -/
theorem ghashCorrespondence : Obligations.GhashCorrespondence := by
  intro s h a c rest hs hk ha hc hagenda
  obtain ⟨t, hgoes, ht⟩ := goes_ghashSequence hs hk (a := a) (c := c) (by omega) (by omega)
  obtain ⟨hrun, hacc⟩ := hgoes rest
  have hsched : schedule (ghashSequence a c ++ rest) s = s := by rw [← hagenda]; rfl
  rw [hsched] at hrun hacc
  exact ⟨hacc, schedule rest t, hrun, ht.phase, ht.acc, ht.quiet, ht.noError, rfl⟩

end Sys2Proof.Proofs

namespace Sys2Proof.Proofs

open Sys2Proof.Machine Sys2Proof.Reference

/-! ### The comparator commands at completion -/

/-- Settles O46: the padded difference is not 0 exactly where one of the first n byte pairs differs. -/
theorem ctFeedCompletes : Obligations.CtFeedCompletes := by
  intro s n a b ht hf hpos hle hrem
  exact ⟨pad n (a ^^^ b) != 0, s.rem - byteCount n, pad_xor_ne hpos hle a b, sub_byteCount hrem, exec_inflight ht hf⟩

/-- Settles O45: the two effects, and the slot freed. -/
theorem ctClearAndCtLenComplete : Obligations.CtClearAndCtLenComplete := by
  intro s a b ht
  refine ⟨exec_inflight ht, fun hf => ?_⟩
  simp only [exec_inflight ht hf, effectOf, effectCtLen, freeSlot, lengthOperand, bne, beq_eq_decide, decide_not]

/-! ### Commands that do not meet: the two engines -/

/-- `f` replaces registers other than those that issuing a command and freeing the slot read and write (R190, R191). -/
structure KeepsIssue (f : State → State) : Prop where
  turn (s : State) : (f s).turn = s.turn
  slot (s : State) : (f s).inflight = s.inflight
  code (s : State) : (f s).errcode = s.errcode
  setCode (c : ErrCode) (s : State) : f { s with errcode := c } = { f s with errcode := c }
  setFree (s : State) : f (freeSlot s) = freeSlot (f s)
  setLatch (i : Instr) (s : State) : f (latch i s) = latch i (f s)

theorem keepsIssue_withGhash (u : State) : KeepsIssue (withGhash u) := by
  constructor <;> intros <;> rfl

theorem keepsIssue_withComparator (u : State) : KeepsIssue (withComparator u) := by
  constructor <;> intros <;> rfl

section
variable {f : State → State} (hf : KeepsIssue f)
include hf

theorem raise_replaced (c : ErrCode) (s : State) : raise c (f s) = f (raise c s) := by
  unfold raise
  rw [hf.code]
  split
  · exact (hf.setCode c s).symm
  · rfl

theorem accept_replaced (i : Instr) (s : State) : accept i (f s) = f (accept i s) := by
  unfold accept
  split
  · exact (congrArg (latch i) (hf.setCode .noError s).symm).trans (hf.setLatch i _).symm
  · exact (hf.setLatch i s).symm

theorem issue_replaced (i : Instr) (r : Option ErrCode) (s : State) : issue i r (f s) = f (issue i r s) := by
  obtain ⟨h, e⟩ | ⟨h, he, hi, e⟩ | ⟨h, he, ⟨c, rfl, e⟩ | ⟨rfl, e⟩⟩ := issue_cases i r s <;> rw [e] <;>
    rw [← hf.slot s] at h
  · rw [issue_busy h, raise_replaced hf]
  · rw [issue_blocked h (hf.code s ▸ he) hi]
  · rw [issue_rejected h (hf.code s ▸ he), raise_replaced hf]
  · rw [issue_accepted h (hf.code s ▸ he), accept_replaced hf]

theorem finish_replaced {i : Instr} {s : State} {effect : Block → Block → State → State}
    (heffect : ∀ a b, effect a b (f s) = f (effect a b s)) : finish i effect (f s) = f (finish i effect s) := by
  unfold finish
  rw [hf.slot]
  split
  · split
    · rw [heffect, hf.setFree]
    · rfl
  · rfl

/-- A command whose checks do not read what `f` replaces, and whose effect neither reads nor writes it, does the same
with it replaced, at issue and at completion. -/
theorem exec_replaced {i : Instr} {s t : State} (hcheck : checkOf i (f s) = checkOf i s)
    (heffect : ∀ a b, effectOf i a b (f s) = f (effectOf i a b s)) (h : exec i s = .next t) :
    exec i (f s) = .next (f t) := by
  cases hturn : s.turn with
  | host =>
    rw [exec_host i hturn] at h
    cases h
    rw [exec_host i ((hf.turn s).trans hturn), hcheck, issue_replaced hf]
  | engine =>
    rw [exec_engine i hturn] at h
    cases h
    rw [exec_engine i ((hf.turn s).trans hturn), finish_replaced hf heffect]

end

/-- Settles O48: the checks of each engine's commands read, and the effects read and write, their own registers only. -/
theorem enginesAreIndependent : Obligations.EnginesAreIndependent := by
  constructor
  · intro s t u i hi
    obtain rfl | rfl | ⟨n, rfl⟩ := hi <;> exact exec_replaced (keepsIssue_withGhash u) rfl fun _ _ => rfl
  · intro s t u i hi
    obtain rfl | rfl | rfl | ⟨n, rfl | rfl⟩ := hi <;>
      exact exec_replaced (keepsIssue_withComparator u) rfl fun _ _ => rfl

/-! ### The byte pairs fed -/

/-- The first `k` bytes of `a` and `b` differ somewhere. -/
def DifferWithin (a b : List Byte) (k : Nat) : Prop := ∃ i < k, a.getD i 0 ≠ b.getD i 0

theorem differWithin_add (a b : List Byte) (m n : Nat) :
    DifferWithin a b (m + n) ↔ DifferWithin a b m ∨ ∃ i < n, a.getD (m + i) 0 ≠ b.getD (m + i) 0 := by
  constructor
  · rintro ⟨i, hi, hne⟩
    by_cases hm : i < m
    · exact .inl ⟨i, hm, hne⟩
    · exact .inr ⟨i - m, by omega, by rwa [Nat.add_sub_cancel' (by omega)]⟩
  · rintro (⟨i, hi, hne⟩ | ⟨i, hi, hne⟩)
    · exact ⟨i, by omega, hne⟩
    · exact ⟨m + i, by omega, hne⟩

/-- One chunk's padded difference: the byte pairs at its positions (R154, R156). -/
theorem pad_xor_chunk {n : Count} (hpos : 1 ≤ n.toNat) (hle : n.toNat ≤ 16) (a b : List Byte) (j : Nat) :
    (pad n (blockValue (chunk a j) ^^^ blockValue (chunk b j)) != 0) = true ↔
      ∃ i < n.toNat, a.getD (16 * j + i) 0 ≠ b.getD (16 * j + i) 0 := by
  rw [pad_xor_ne hpos hle]
  refine exists_congr fun i => and_congr_right fun hi => ?_
  have h16 : i < 16 := by omega
  rw [blockByte_blockValue _ _ h16, blockByte_blockValue _ _ h16, chunk_getD _ _ _ h16, chunk_getD _ _ _ h16]

/-- Filler past the end of `b` is not compared where `b` is as long as `a`. -/
theorem differWithin_filler {a b : List Byte} (hlen : a.length = b.length) (filler : List Byte) :
    DifferWithin a (b ++ filler) a.length ↔ DifferWithin a b a.length :=
  exists_congr fun i => and_congr_right fun hi => by rw [List.getD_append b filler 0 i (hlen ▸ hi)]

theorem ctEqual_iff (a b : List Byte) : ctEqual a b = true ↔ a.length = b.length ∧ ¬ DifferWithin a b a.length := by
  simp [ctEqual, DifferWithin]

/-! ### The command sequence of R156 -/

/-- Between two commands of a comparison of `a` with the bytes `b`, the lengths found different or not: `k` byte pairs
fed. -/
structure MidCompare (a b : List Byte) (mismatch : Bool) (k : Nat) (s : State) : Prop where
  quiet : s.inflight = none
  noError : s.errcode = .noError
  armed : s.armed = true
  lenmis : s.lenmis = mismatch
  rem : s.rem.toNat = a.length - k
  diff : s.diff = true ↔ DifferWithin a b k

/-- Blocks loaded into OPA and OPB, and then the command that takes both. -/
theorem goes_loadBoth_perform {i : Instr} {v w : Block} {s : State} (hf : s.inflight = none)
    (he : s.errcode = .noError) (hc : checkOf i s = none) (hcl : clearsError i = false) :
    Goes (writeBlock 0x10 v ++ (writeBlock 0x20 w ++ perform i)) s
      (freeSlot (effectOf i v w (actAs .engine { s with opa := v, opb := w }))) :=
  goes_append (goes_writeBlock_opa v s) (goes_append (goes_writeBlock_opb w _)
    (goes_perform (s := { s with opa := v, opb := w }) (decodeOfEncode i) hf he
      ((checkOf_congr i rfl rfl rfl rfl rfl rfl).trans hc) hcl))

/-- CT_FEED of chunk `j`: the byte pairs before it are those of the whole chunks before it. -/
theorem goes_feedChunk {a b : List Byte} {mismatch : Bool} {j : Nat} (hj : 16 * j < a.length) {s : State}
    (hs : MidCompare a b mismatch (16 * j) s) :
    ∃ t, Goes (writeBlock 0x10 (blockValue (chunk a j)) ++ (writeBlock 0x20 (blockValue (chunk b j)) ++
        perform (.ctFeed (BitVec.ofNat 5 (chunk a j).length)))) s t ∧
      MidCompare a b mismatch (16 * j + (chunk a j).length) t := by
  obtain ⟨hf, he, harmed, hlenmis, hrem, hdiff⟩ := hs
  have hlen := chunk_length a j
  have hn : (BitVec.ofNat 5 (chunk a j).length).toNat = (chunk a j).length := count_length (by omega)
  generalize BitVec.ofNat 5 (chunk a j).length = n at hn ⊢
  rw [← hn] at hlen ⊢
  have hpos : 1 ≤ n.toNat := by omega
  have hle : n.toNat ≤ 16 := by omega
  have hfits : n.toNat ≤ s.rem.toNat := by omega
  have hc : checkCtFeed n s = none := checkCtFeed_eq_none.2 ⟨⟨hpos, hle⟩, harmed, hfits⟩
  refine ⟨_, goes_loadBoth_perform (i := .ctFeed n) hf he hc rfl, rfl, he, harmed, hlenmis, ?_, ?_⟩
  · exact (sub_byteCount hfits).trans (by omega)
  · rw [differWithin_add, ← hdiff, ← pad_xor_chunk hpos hle]
    exact Bool.or_eq_true_iff

/-- The byte pairs in the first `j` chunks of `d`: the last chunk may be partial. -/
def bytesBefore (d : List Byte) (j : Nat) : Nat := min (16 * j) d.length

/-- All chunks of `a` in turn (R156 step 3). -/
theorem goes_feedAll {a b : List Byte} {mismatch : Bool} {s : State} (hs : MidCompare a b mismatch 0 s) :
    ∃ t, Goes (feedAll a b) s t ∧ MidCompare a b mismatch a.length t := by
  have hall : bytesBefore a (chunkCount a) = a.length := by unfold bytesBefore chunkCount; omega
  rw [← hall]
  refine goes_flatMap_range (P := fun j => MidCompare a b mismatch (bytesBefore a j)) ?_ ?_
  · intro j hj t ht
    have hlt := (lt_chunkCount_iff a j).1 hj
    have hbefore : bytesBefore a j = 16 * j := min_eq_left hlt.le
    have hafter : bytesBefore a (j + 1) = 16 * j + (chunk a j).length := by
      rw [bytesBefore, chunk_length]; omega
    rw [hafter]
    exact goes_feedChunk hlt (hbefore ▸ ht)
  · simpa [bytesBefore] using hs

/-- CT_CLEAR, from any state that may start the sequence (R152). -/
theorem goes_ctClear {s : State} (hs : s.CleanEntry) :
    ∃ t, Goes (perform .ctClear) s t ∧ t.CleanEntry ∧ t.armed = false ∧ t.diff = false := by
  obtain ⟨hf, he⟩ := hs
  exact ⟨_, goes_perform (decodeOfEncode .ctClear) hf he rfl rfl, ⟨rfl, he⟩, rfl, rfl⟩

/-- The two lengths loaded, and CT_LEN (R153). -/
theorem goes_ctLen {s : State} (hs : s.CleanEntry) (harmed : s.armed = false) (la lb : Length) :
    ∃ t, Goes (writeLength 0x10 la ++ (writeLength 0x20 lb ++ perform .ctLen)) s t ∧ t.CleanEntry ∧
      t.armed = true ∧ t.lenmis = (la != lb) ∧ t.rem = la ∧ t.diff = s.diff := by
  obtain ⟨hf, he⟩ := hs
  obtain ⟨x, hx, rfl⟩ := goes_writeLength_opa la s
  obtain ⟨y, hy, rfl⟩ := goes_writeLength_opb lb { s with opa := x }
  have hc : checkCtLen { s with opa := x, opb := y } = none := by simp [checkCtLen, harmed]
  exact ⟨_, goes_append hx (goes_append hy
    (goes_perform (i := .ctLen) (s := { s with opa := x, opb := y }) (decodeOfEncode _) hf he hc rfl)),
    ⟨rfl, he⟩, rfl, rfl, rfl, rfl⟩

/-- The sequence of R156, from any state that may start it. -/
theorem goes_compareSequence {s : State} {a b filler : List Byte} (hs : s.CleanEntry) (ha : a.length ≤ 2 ^ 64 - 1) :
    ∃ t, Goes (compareSequence a b filler) s t ∧
      MidCompare a (b ++ filler) (BitVec.ofNat 64 a.length != BitVec.ofNat 64 b.length) a.length t := by
  obtain ⟨s₁, g₁, h₁, harmed₁, hdiff₁⟩ := goes_ctClear hs
  obtain ⟨s₂, g₂, ⟨hf, he⟩, harmed, hlenmis, hrem, hdiff⟩ :=
    goes_ctLen h₁ harmed₁ (BitVec.ofNat 64 a.length) (BitVec.ofNat 64 b.length)
  have hstart : MidCompare a (b ++ filler) (BitVec.ofNat 64 a.length != BitVec.ofNat 64 b.length) 0 s₂ :=
    ⟨hf, he, harmed, hlenmis, by rw [hrem, BitVec.toNat_ofNat]; omega, by simp [hdiff, hdiff₁, DifferWithin]⟩
  obtain ⟨s₃, g₃, h₃⟩ := goes_feedAll hstart
  refine ⟨s₃, ?_, h₃⟩
  have g := goes_append g₁ (goes_append g₂ g₃)
  rwa [List.append_assoc, List.append_assoc] at g

/-- CMP_EQ once all of `a` is fed (R32): neither the lengths nor a byte pair differed. -/
theorem cmpEq_eq_ctEqual {a b filler : List Byte} (ha : a.length ≤ 2 ^ 64 - 1) (hb : b.length ≤ 2 ^ 64 - 1)
    {t : State} (ht : MidCompare a (b ++ filler) (BitVec.ofNat 64 a.length != BitVec.ofNat 64 b.length) a.length t) :
    t.cmpEq = ctEqual a b := by
  have hrem : t.rem = 0 := BitVec.eq_of_toNat_eq (by simp [ht.rem])
  have hlen : t.lenmis = false ↔ a.length = b.length := by
    rw [ht.lenmis, bne_eq_false_iff_eq, ← BitVec.toNat_inj, BitVec.toNat_ofNat, BitVec.toNat_ofNat]
    omega
  have hcmp : t.cmpEq = true ↔ t.lenmis = false ∧ ¬ t.diff = true := by
    simp [State.cmpEq, ht.armed, hrem]
  rw [Bool.eq_iff_iff, hcmp, ctEqual_iff, hlen, ht.diff]
  exact and_congr_right fun h => not_congr (differWithin_filler h filler)

/-- A sequence at the head of the agenda. -/
theorem goes_scheduled {es rest : List Event} {s t : State} (h : Goes es s t) (ha : s.agenda = es ++ rest) :
    Host.Core.run Sys2Proof.core es.length s = .next (schedule rest t) ∧ allAccepted es.length s := by
  have hsched : schedule (es ++ rest) s = s := by rw [← ha]; rfl
  simpa only [hsched] using h rest

/-- Settles O54: the sequence goes through with every command accepted, DIFF and REM kept by each chunk. -/
theorem comparatorCorrespondence : Obligations.ComparatorCorrespondence := by
  intro s a b filler rest hs ha hb hagenda
  obtain ⟨t, hgoes, ht⟩ := goes_compareSequence hs ha (b := b) (filler := filler)
  obtain ⟨hrun, hacc⟩ := goes_scheduled hgoes hagenda
  have hcmp : t.cmpEq = ctEqual a b := cmpEq_eq_ctEqual ha hb ht
  exact ⟨hacc, schedule rest t, hrun, hcmp, ht.quiet, ht.noError, rfl⟩

end Sys2Proof.Proofs

namespace Sys2Proof.Proofs

open Sys2Proof.Machine

/-! ### The control commands at completion -/

/-- Settles O39: neither effect changes the state, so only the slot is freed. -/
theorem nopAndClrErrComplete : Obligations.NopAndClrErrComplete := by
  intro s a b ht
  exact ⟨exec_inflight ht, exec_inflight ht⟩

/-- The cleared registers with the slot free are those of reset but for ERRCODE, which ZERO does not clear at
completion (R42, R171). -/
theorem freeSlot_clearRegisters_sameBlock (s : State) :
    (freeSlot (clearRegisters s)).sameBlock { State.reset with errcode := s.errcode } := by
  simp [State.sameBlock, State.reset]

/-- Settles O40: ZERO's effect is to clear the registers, and the slot is freed. -/
theorem zeroCompletes : Obligations.ZeroCompletes := by
  intro s a b ht hf
  exact ⟨freeSlot (clearRegisters s), exec_inflight ht hf, freeSlot_clearRegisters_sameBlock s, rfl, rfl⟩

end Sys2Proof.Proofs

namespace Sys2Proof.Proofs

open Sys2Proof.Machine Sys2Proof.Reference

/-! ### The issue function (R190) -/

/-- The three opcodes the ERR block lets through (R189). -/
theorem opcode_acceptedInError (i : Instr) :
    i.opcode ∈ [0x00#8, 0x0F#8, 0x0E#8] ↔ acceptedInError i = true := by
  cases i <;> simp [Instr.opcode, acceptedInError]

/-- The two opcodes whose acceptance clears ERRCODE (R190). -/
theorem opcode_clearsError (i : Instr) : i.opcode ∈ [0x0F#8, 0x0E#8] ↔ clearsError i = true := by
  cases i <;> simp [Instr.opcode, clearsError]

theorem countOk_eq_false (n : Count) : countOk n = false ↔ n.toNat < 1 ∨ 16 < n.toNat := by
  rw [← Bool.not_eq_true, countOk_iff]
  omega

/-- The checks by opcode numbers are the command's own. -/
theorem checkReference_eq (i : Instr) (s : State) :
    checkReference i.opcode i.count.toNat s = checkOf i s := by
  cases i with
  | ghAad n | ghCt n | ctFeed n =>
    simp [checkReference, checkOf, checkGhAad, checkGhCt, checkCtFeed, Instr.opcode, Instr.count, passesBound,
      countOk_eq_false]
  | ghSeth | ghFinal =>
    cases h : s.phase <;> simp [checkReference, checkOf, checkGhSeth, checkGhFinal, Instr.opcode, h]
  | ghInit => cases h : s.hvalid <;> simp [checkReference, checkOf, checkGhInit, Instr.opcode, h]
  | _ => simp [checkReference, checkOf, checkCtLen, Instr.opcode]

/-- Acceptance latches the operands and, for CLR_ERR and ZERO, clears ERRCODE; nothing else changes (R190). -/
theorem accept_eq (i : Instr) (s : State) :
    accept i s =
      { s with
        errcode := if clearsError i then .noError else s.errcode
        inflight := some ⟨i, s.opa, s.opb⟩ } := by
  unfold accept
  split <;> rfl

theorem raiseReference_eq (c : ErrCode) (s : State) : raiseReference c s = raise c s := (raise_eq c s).symm

/-- An illegal word against the transcription: BUSY, then ILLEGAL. -/
theorem issueReference_illegal {w : Word} {e : DecodeError} (hd : decode w = .error e) (s : State) :
    issueReference w s = issueIllegal s := by
  rw [issueIllegal_eq]
  by_cases hf : s.inflight = none <;> simp [issueReference, hd, hf, raiseReference_eq]

/-- A legal word against the transcription, by what `issue` can do. -/
theorem issueReference_legal {w : Word} {i : Instr} (hd : decode w = .ok i) (s : State) :
    issueReference w s = issue i (checkOf i s) s := by
  unfold issueReference
  simp only [hd, checkReference_eq, raiseReference_eq, opcode_acceptedInError, opcode_clearsError]
  obtain ⟨hf, h⟩ | ⟨hf, he, hi, h⟩ | ⟨hf, he, ⟨c, hc, h⟩ | ⟨hc, h⟩⟩ := issue_cases i (checkOf i s) s
  · simp [h, hf]
  · simp [h, hf, he, hi]
  · rw [h]
    rcases he with he | he <;> simp [hf, he, hc]
  · rw [h, accept_eq]
    rcases he with he | he <;> simp [hf, he, hc]

theorem issueWord_eq_issueReference (w : Word) (s : State) :
    issueWord w s = .next (issueReference w (actAs .host s)) := by
  cases hd : decode w with
  | error e => rw [issueWord_illegal hd, issueReference_illegal hd]
  | ok i =>
    rw [issueReference_legal hd, issueWord_ok hd]
    rfl

/-- A command that stays in flight over a step checks the same registers before and after it (R190). -/
theorem checkOf_of_stays {s t : State} {f : Inflight} (h : step s = .next t) (hs : s.inflight = some f)
    (ht : t.inflight = some f) (i : Instr) : checkOf i t = checkOf i s := by
  cases step_slotStep h with
  | keeps results =>
    exact checkOf_congr i results.phase results.hvalid results.lena results.lenc results.armed results.rem
  | accepts j free => simp [free] at hs
  | completes g busy results slot => simp [slot] at ht
  | resets d rest next results slot => simp [slot] at ht

/-- Settles O26: the issue function by what it can do, the checks by the registers a step leaves alone while the slot
stays taken. -/
theorem issueFunction : Obligations.IssueFunction := by
  refine ⟨fun s off w rest ha ho => ?_, fun s t f h hs ht => ?_⟩
  · rw [step_cmd ha ((regAt_eq_cmd off).2 ho), issueWord_eq_issueReference]
  · rw [checkReference_eq, checkReference_eq, checkOf_of_stays h hs ht]

/-! ### A write to CMD while a command is in flight (R187) -/

theorem issueReference_busy {s : State} (hf : s.inflight ≠ none) (w : Word) :
    issueReference w s = raise .busy s := by
  simp [issueReference, hf, raiseReference_eq]

theorem step_cmd_busy {s : State} {f : Inflight} {off : Offset} {w : Word} {rest : List Event}
    (hf : s.inflight = some f) (ho : off &&& 0xFC#8 = 0x04#8) (ha : s.agenda = .access (.write off w) :: rest) :
    step s = .next (raise .busy (actAs .host (schedule rest s))) := by
  rw [issueFunction.1 s off w rest ha ho, issueReference_busy (by simp [hf])]

/-- ERRCODE does not enter an effect. -/
theorem effectOf_setErrcode (i : Instr) (a b : Block) (c : ErrCode) (s : State) :
    effectOf i a b { s with errcode := c } = { effectOf i a b s with errcode := c } := by
  cases i with
  | ghAad n => simp only [effectOf, effectGhAad, absorb]
  | ghCt n => simp only [effectOf, effectGhCt, absorb]
  | ghFinal => simp only [effectOf, effectGhFinal, absorb]
  | _ => rfl

/-- Settles O27: the write records BUSY, and the effect that follows neither reads nor writes ERRCODE. -/
theorem busyRejection : Obligations.BusyRejection := by
  intro s f off w rest hf ho
  constructor
  · intro ha
    rw [step_cmd_busy hf ho ha, raise_eq]
    rfl
  · have alone := step_complete_inflight (s := schedule (.complete :: rest) s) rfl hf
    have write := step_cmd_busy (s := schedule (.access (.write off w) :: .complete :: rest) s) (w := w) hf ho rfl
    have completion := step_complete_inflight
      (s := raise .busy (actAs .host (schedule (.complete :: rest) s))) (f := f) (rest := rest)
      (by simp) (by simp [hf])
    refine ⟨_, alone, rfl, (run_two write completion).trans ?_⟩
    rw [raise_eq, effectOf_setErrcode, effectOf_actAs_schedule, effectOf_schedule]
    rfl

/-! ### The ERR block (R189) and precise errors (R188) -/

theorem mem_acceptedInError (i : Instr) : i ∈ [Instr.nop, .clrErr, .zero] ↔ acceptedInError i = true := by
  cases i <;> simp [acceptedInError]

/-- A command that passes its checks goes in flight (R190). -/
theorem exec_accepted {i : Instr} {s : State} (ht : s.turn = .host) (hf : s.inflight = none)
    (he : s.errcode = .noError ∨ acceptedInError i = true) (hc : checkOf i s = none) :
    exec i s = .next { s with
      errcode := if clearsError i then .noError else s.errcode
      inflight := some ⟨i, s.opa, s.opb⟩ } := by
  rw [exec_host i ht, hc, issue_accepted hf he, accept_eq]

/-- A command that fails a check records its first error and changes nothing else (R188). -/
theorem exec_rejected {i : Instr} {c : ErrCode} {s : State} (ht : s.turn = .host) (hf : s.inflight = none)
    (he : s.errcode = .noError) (hc : checkOf i s = some c) : exec i s = .next { s with errcode := c } := by
  rw [exec_host i ht, hc, issue_rejected hf (.inl he), raise_eq, if_pos he]

/-- Settles O28: the ERR block drops all commands but three, and those three have no check of their own. -/
theorem blockedWhileError : Obligations.BlockedWhileError := by
  intro s i ht hf he
  rw [mem_acceptedInError]
  constructor
  · intro hi
    rw [exec_host i ht, issue_blocked hf he (by simpa using hi)]
  · intro hi
    exact ⟨_, exec_accepted ht hf (.inr hi) (checkOf_acceptedInError hi s), rfl⟩

theorem raise_precise (c : ErrCode) (s : State) :
    raise c s = { s with errcode := (raise c s).errcode } ∧ (s.errcode ≠ .noError → (raise c s).errcode = s.errcode) :=
  ⟨by rw [raise_eq], fun he => by simp [he]⟩

/-- Settles O29: of the outcomes of issuing a command, those that leave the slot as it was are an error recorded and
the ERR block. -/
theorem errorsArePrecise : Obligations.ErrorsArePrecise := by
  intro s t i ht h hslot
  rw [exec_host i ht] at h
  cases h
  obtain ⟨-, h⟩ | ⟨-, -, -, h⟩ | ⟨hf, -, ⟨c, -, h⟩ | ⟨-, h⟩⟩ := issue_cases i (checkOf i s) s
  · rw [h]; exact raise_precise .busy s
  · rw [h]; exact ⟨rfl, fun _ => rfl⟩
  · rw [h]; exact raise_precise c s
  · simp [h, hf] at hslot

/-! ### Completing a command (R191) -/

/-- Settles O23: `Complete` takes the command in flight. -/
theorem stepCompletes : Obligations.StepCompletes := by
  intro s f rest hf ha
  rw [step_complete ha]
  simp only [complete, schedule_inflight, hf]

/-- Settles O24: `Complete` is not enabled with the slot free. -/
theorem idleBlockWaits : Obligations.IdleBlockWaits := by
  intro s rest hf ha
  rw [step_complete ha]
  exact complete_idle hf

/-! ### The first failing check of each command (R183 to R186) -/

theorem checkGhSeth_eq_none {s : State} : checkGhSeth s = none ↔ s.phase = .idle ∨ s.phase = .done := by
  unfold checkGhSeth
  split_ifs <;> simp_all

theorem checkGhSeth_order {s : State} (hp : s.phase ∉ [Phase.idle, .done]) : checkGhSeth s = some .order := by
  simpa [checkGhSeth] using hp

theorem checkGhFinal_order {s : State} (hp : s.phase ∈ [Phase.idle, .done]) : checkGhFinal s = some .order := by
  simp only [List.mem_cons, List.not_mem_nil, or_false] at hp
  rcases hp with hp | hp <;> simp [checkGhFinal, hp]

theorem checkCtLen_eq_none {s : State} : checkCtLen s = none ↔ s.armed = false := by simp [checkCtLen]

theorem checkCtLen_order {s : State} (ha : s.armed = true) : checkCtLen s = some .order := by simp [checkCtLen, ha]

section
variable {n : Count}

theorem checkGhAad_badCount (hn : countOk n = false) (s : State) : checkGhAad n s = some .badCount := by
  simp [checkGhAad, hn]

theorem checkGhCt_badCount (hn : countOk n = false) (s : State) : checkGhCt n s = some .badCount := by
  simp [checkGhCt, hn]

theorem checkCtFeed_badCount (hn : countOk n = false) (s : State) : checkCtFeed n s = some .badCount := by
  simp [checkCtFeed, hn]

variable (hn : countOk n = true) {s : State}
include hn

theorem checkGhAad_order (hp : s.phase ≠ .aad) : checkGhAad n s = some .order := by
  simp [checkGhAad, hn, hp]

theorem checkGhAad_lenOvf (hp : s.phase = .aad) (hl : 2 ^ 64 - 1 < s.lena.toNat + 8 * n.toNat) :
    checkGhAad n s = some .lenOvf := by
  simpa [checkGhAad, hn, hp, passesBound] using hl

theorem checkGhCt_order (hp : s.phase ∉ [Phase.aad, .aadp, .ct]) : checkGhCt n s = some .order := by
  simpa [checkGhCt, hn] using hp

theorem checkGhCt_lenOvf (hp : s.phase ∈ [Phase.aad, .aadp, .ct]) (hl : 2 ^ 64 - 1 < s.lenc.toNat + 8 * n.toNat) :
    checkGhCt n s = some .lenOvf := by
  have hc : s.phase = .aad ∨ s.phase = .aadp ∨ s.phase = .ct := by simpa using hp
  simpa [checkGhCt, hn, hc, passesBound] using hl

theorem checkCtFeed_order (ha : s.armed = false) : checkCtFeed n s = some .order := by
  simp [checkCtFeed, hn, ha]

theorem checkCtFeed_lenOvf (ha : s.armed = true) (hr : s.rem.toNat < n.toNat) : checkCtFeed n s = some .lenOvf := by
  simp [checkCtFeed, hn, ha, hr]

end

/-! ### Rejections and acceptances, by the command's own check -/

/-- Settles O30: the count is the first check of the three counted commands. -/
theorem badCountRejection : Obligations.BadCountRejection := by
  intro s n ht hf he hcount
  have hn : countOk n = false := (countOk_eq_false n).2 (by omega)
  exact ⟨exec_rejected ht hf he (checkGhAad_badCount hn s), exec_rejected ht hf he (checkGhCt_badCount hn s),
    exec_rejected ht hf he (checkCtFeed_badCount hn s)⟩

/-- Settles O31: each cause is the first failing check of its command, once the count is legal. -/
theorem orderRejection : Obligations.OrderRejection := by
  intro s n ht hf he hlo hhi
  have hn : countOk n = true := (countOk_iff n).2 ⟨hlo, hhi⟩
  exact ⟨fun hp => exec_rejected ht hf he (checkGhSeth_order hp),
    fun hp => exec_rejected ht hf he (checkGhAad_order hn hp),
    fun hp => exec_rejected ht hf he (checkGhCt_order hn hp),
    fun hp => exec_rejected ht hf he (checkGhFinal_order hp),
    fun ha => exec_rejected ht hf he (checkCtLen_order ha),
    fun ha => exec_rejected ht hf he (checkCtFeed_order hn ha)⟩

/-- Settles O32: the one check of GH_INIT. -/
theorem noKeyRejection : Obligations.NoKeyRejection := by
  intro s ht hf he hv
  have hc : checkGhInit s = some .noKey := by simp [checkGhInit, hv]
  exact exec_rejected ht hf he hc

/-- Settles O33: the length is the last check of the three counted commands. -/
theorem lengthOverflowRejection : Obligations.LengthOverflowRejection := by
  intro s n ht hf he hlo hhi
  have hn : countOk n = true := (countOk_iff n).2 ⟨hlo, hhi⟩
  exact ⟨fun hp hl => exec_rejected ht hf he (checkGhAad_lenOvf hn hp hl),
    fun hp hl => exec_rejected ht hf he (checkGhCt_lenOvf hn hp hl),
    fun ha hr => exec_rejected ht hf he (checkCtFeed_lenOvf hn ha hr)⟩

/-- Settles O34: no check of their own, and NOP, ZERO and CLR_ERR pass the ERR block. -/
theorem uncheckedCommandsAccepted : Obligations.UncheckedCommandsAccepted := by
  intro s ht hf
  refine ⟨fun he i hi => ?_, exec_accepted ht hf (.inr rfl) rfl, exec_accepted ht hf (.inr rfl) rfl,
    exec_accepted ht hf (.inr rfl) rfl⟩
  simp only [List.mem_cons, List.not_mem_nil, or_false] at hi
  obtain rfl | rfl | rfl := hi <;> exact exec_accepted ht hf (.inl he) rfl

/-- Settles O35: under these conditions each command's own check passes. -/
theorem ghashCommandsAccepted : Obligations.GhashCommandsAccepted := by
  intro s n ht hf he
  refine ⟨fun hp => exec_accepted ht hf (.inl he) (checkGhSeth_eq_none.2 hp),
    fun hv => exec_accepted ht hf (.inl he) (checkGhInit_eq_none.2 hv),
    fun hlo hhi hp hl => exec_accepted ht hf (.inl he) (checkGhAad_eq_none.2 ⟨⟨hlo, hhi⟩, hp, hl⟩),
    fun hlo hhi hp hl => exec_accepted ht hf (.inl he) (checkGhCt_eq_none.2 ⟨⟨hlo, hhi⟩, hp, hl⟩),
    fun hidle hdone => exec_accepted ht hf (.inl he) (checkGhFinal_eq_none.2 ?_)⟩
  cases hp : s.phase <;> simp_all

/-- Settles O36: under these conditions each command's own check passes. -/
theorem comparatorCommandsAccepted : Obligations.ComparatorCommandsAccepted := by
  intro s n ht hf he
  exact ⟨fun ha => exec_accepted ht hf (.inl he) (checkCtLen_eq_none.2 ha),
    fun hlo hhi ha hr => exec_accepted ht hf (.inl he) (checkCtFeed_eq_none.2 ⟨⟨hlo, hhi⟩, ha, hr⟩)⟩

end Sys2Proof.Proofs

namespace Sys2Proof.Proofs

open Sys2Proof.Machine Sys2Proof.Reference

/-! ### Reset (R210, R211) -/

/-- ID is the word at offset 0x00 and no other (R61). -/
theorem regAt_eq_id (off : Offset) : regAt off = .id ↔ off &&& 0xFC#8 = 0 := by
  revert off; decide +kernel

/-- Every register but ID reads 0 at reset. -/
theorem readReg_reset {r : Reg} (hr : r ≠ .id) : readReg r State.reset = 0 := by
  cases r with
  | id => exact absurd rfl hr
  | opa k | opb k | res k | y k => revert k; decide
  | _ => decide

theorem hostRead_reset (off : Offset) :
    hostRead off State.reset = if off &&& 0xFC#8 = 0 then 0x47480001#32 else 0 := by
  rw [← if_congr (regAt_eq_id off) rfl rfl]
  split
  · next hid => exact hostRead_of_regAt hid State.reset
  · next hid => exact readReg_reset hid

/-- Settles O20: the fields by the definition of the reset state, the reads by the register at each offset. -/
theorem resetValues : Obligations.ResetValues :=
  ⟨rfl, rfl, rfl, rfl, rfl, rfl, rfl, rfl, rfl, rfl, rfl, rfl, rfl, rfl, rfl, by decide, hostRead_reset⟩

theorem applyReset_resetState (s : State) : (applyReset s).ResetState := by
  simp [State.ResetState, State.sameBlock, State.reset]

/-- The model's own fields do not enter a read: a reset block reads as `State.reset` does. -/
theorem hostRead_applyReset (off : Offset) (s : State) :
    hostRead off (applyReset s) = hostRead off State.reset :=
  hostRead_congr off rfl rfl rfl rfl rfl rfl rfl

theorem step_reset {s : State} {d : Option Access} {rest : List Event} (ha : s.agenda = .reset d :: rest) :
    step s = .next (resetStep d (schedule rest s)) := by
  unfold step runAgenda
  rw [ha]
  rfl

/-- Settles O21: whatever access there is, the state is that of `applyReset`, and a read sees that state. -/
theorem resetFromAnyState : Obligations.ResetFromAnyState := by
  intro s d rest ha
  refine ⟨_, step_reset ha, ?_⟩
  cases d with
  | none => exact ⟨applyReset_resetState _, rfl, nofun⟩
  | some acc =>
    cases acc with
    | write off v => exact ⟨applyReset_resetState _, rfl, nofun⟩
    | read off =>
      refine ⟨applyReset_resetState (schedule rest s), rfl, ?_⟩
      rintro off' ⟨⟩
      exact (hostRead_applyReset off (schedule rest s)).trans (hostRead_reset off)

/-! ### While a command stays in flight (R215) -/

theorem cmpEq_of_sameResults {s t : State} (hr : SameResults t s) : t.cmpEq = s.cmpEq := by
  rw [State.cmpEq, State.cmpEq, hr.armed, hr.rem, hr.lenmis, hr.diff]

/-- Settles O18: of the four kinds of step only the one that keeps slot and results starts and ends busy. -/
theorem resultsHeldWhileBusy : Obligations.ResultsHeldWhileBusy := by
  intro s t f h hf ht
  cases step_slotStep h with
  | keeps results slot error =>
    exact ⟨slot.trans hf, results.res, results.y, results.lena, results.lenc, results.hvalid, results.phase,
      cmpEq_of_sameResults results, results.h⟩
  | accepts i free checked results slot error => simp [free] at hf
  | completes g busy results slot error => exact absurd slot ht
  | resets d rest next results slot error => exact absurd slot ht

/-! ### The error check at the end of a run (R223) -/

/-- A failed check names an error (R181, R190). -/
theorem checkOf_ne_noError (i : Instr) (s : State) : checkOf i s ≠ some .noError := by
  cases i with
  | ghSeth => simp [checkOf, checkGhSeth]
  | ghInit => simp [checkOf, checkGhInit]
  | ghAad n => simp [checkOf, checkGhAad, ite_eq_iff]
  | ghCt n => simp [checkOf, checkGhCt, ite_eq_iff]
  | ghFinal => simp [checkOf, checkGhFinal]
  | ctLen => simp [checkOf, checkCtLen]
  | ctFeed n => simp [checkOf, checkCtFeed, ite_eq_iff]
  | _ => exact nofun

/-- The write of the CMD word in the step from `s` to `t` was accepted, if there was one: the slot was free before it
and is taken after it (R8, R15). -/
def CmdAccepted (s t : State) : Prop := ∀ w, commandNext s w → s.inflight = none ∧ t.inflight ≠ none

theorem allAccepted_succ {s u : State} (h : step s = .next u) (k : Nat) :
    allAccepted (k + 1) s ↔ CmdAccepted s u ∧ allAccepted k u := by
  rw [allAccepted, stepped_eq h]
  rfl

theorem not_cmdAccepted {s t : State} {w : Word} (hw : commandNext s w) (hslot : t.inflight = s.inflight) :
    ¬ CmdAccepted s t := by
  intro h
  obtain ⟨hf, ht⟩ := h w hw
  exact ht (hslot.trans hf)

/-- From ERRCODE = 0, issuing a command either takes the free slot or records an error (R188, R190). -/
theorem issue_accepts_or_records (i : Instr) {s : State} (he : s.errcode = .noError) :
    (s.inflight = none ∧ (issue i (checkOf i s) s).inflight ≠ none ∧ (issue i (checkOf i s) s).errcode = .noError) ∨
    ((issue i (checkOf i s) s).inflight = s.inflight ∧ (issue i (checkOf i s) s).errcode ≠ .noError) := by
  obtain ⟨-, h⟩ | ⟨-, hne, -⟩ | ⟨hf, -, ⟨c, hc, h⟩ | ⟨-, h⟩⟩ := issue_cases i (checkOf i s) s
  · exact .inr (by simp [h, he])
  · exact absurd he hne
  · have hcode : c ≠ .noError := fun h0 => checkOf_ne_noError i s (h0 ▸ hc)
    exact .inr (by simp [h, he, hcode])
  · exact .inl (by simp [h, hf, he])

theorem issueIllegal_records {s : State} (he : s.errcode = .noError) :
    (issueIllegal s).inflight = s.inflight ∧ (issueIllegal s).errcode ≠ .noError := by
  rw [issueIllegal_eq]
  split <;> simp [he]

/-- A write to CMD from ERRCODE = 0: it is accepted, or an error is recorded. -/
theorem step_command_accepts_or_records {s t : State} {w : Word} (h : step s = .next t) (hw : commandNext s w)
    (he : s.errcode = .noError) :
    (s.inflight = none ∧ t.inflight ≠ none ∧ t.errcode = .noError) ∨
    (t.inflight = s.inflight ∧ t.errcode ≠ .noError) := by
  obtain ⟨off, rest, ha, ho⟩ := hw
  rw [step_cmd ha ((regAt_eq_cmd off).2 ho)] at h
  cases hd : decode w with
  | error e =>
    rw [issueWord_illegal hd] at h
    cases h
    exact .inr (issueIllegal_records (s := actAs .host (schedule rest s)) he)
  | ok i =>
    rw [issueWord_ok hd] at h
    cases h
    exact issue_accepts_or_records i (s := actAs .host (schedule rest s)) he

/-- Only a write to CMD records an error (R188). -/
theorem step_noError_of_not_commandNext {s t : State} (h : step s = .next t) (hn : ∀ w, ¬ commandNext s w)
    (he : s.errcode = .noError) : t.errcode = .noError := by
  cases step_inv h with
  | read off rest ha => exact he
  | write off v rest ha hr => simpa using he
  | illegal off w e rest ha hr hd => exact absurd ⟨off, rest, ha, (regAt_eq_cmd off).1 hr⟩ (hn w)
  | issue off w i rest ha hr hd => exact absurd ⟨off, rest, ha, (regAt_eq_cmd off).1 hr⟩ (hn w)
  | complete f rest ha hf => simpa using he
  | idle rest ha hf => exact he
  | reset d rest ha => rcases d with _ | ⟨_ | _⟩ <;> rfl

theorem step_noError_iff {s t : State} (h : step s = .next t) (he : s.errcode = .noError) :
    t.errcode = .noError ↔ CmdAccepted s t := by
  by_cases hw : ∃ w, commandNext s w
  · obtain ⟨w, hw⟩ := hw
    obtain ⟨hf, ht, hok⟩ | ⟨hslot, herr⟩ := step_command_accepts_or_records h hw he
    · exact iff_of_true hok fun _ _ => ⟨hf, ht⟩
    · exact iff_of_false herr (not_cmdAccepted hw hslot)
  · have hn := not_exists.1 hw
    exact iff_of_true (step_noError_of_not_commandNext h hn he) fun w hw' => absurd hw' (hn w)

/-- A command enters the free slot by the write of its word to CMD, and by nothing else (R37). -/
theorem step_accepts {s t : State} {f : Inflight} (h : step s = .next t) (hs : s.inflight = none)
    (ht : t.inflight = some f) : ∃ w, commandNext s w ∧ decode w = .ok f.instr := by
  cases step_inv h with
  | issue off w i rest ha hr hd =>
    refine ⟨w, ⟨off, rest, ha, (regAt_eq_cmd off).1 hr⟩, ?_⟩
    obtain ⟨-, e⟩ | ⟨-, -, -, e⟩ | ⟨-, -, ⟨c, -, e⟩ | ⟨-, e⟩⟩ :=
      issue_cases i (checkOf i s) (actAs .host (schedule rest s)) <;> rw [e] at ht
    · simp [hs] at ht
    · simp [hs] at ht
    · simp [hs] at ht
    · rw [accept_inflight] at ht
      cases ht
      exact hd
  | read off rest ha => simp [hs] at ht
  | write off v rest ha hr => simp [hs] at ht
  | illegal off w e rest ha hr hd => simp [issueIllegal_eq, hs] at ht
  | complete g rest ha hf => simp [hs] at hf
  | idle rest ha hf => simp [hs] at ht
  | reset d rest ha => rcases d with _ | ⟨_ | _⟩ <;> cases ht

/-- A recorded error outlasts a step without reset in which no legal CLR_ERR or ZERO is written to CMD (R33). -/
theorem step_error_stays {s t : State} (h : step s = .next t) (he : s.errcode ≠ .noError)
    (hclear : ∀ w, commandNext s w → decode w ≠ .ok .clrErr ∧ decode w ≠ .ok .zero)
    (hreset : ∀ d rest, s.agenda ≠ .reset d :: rest) : t.errcode ≠ .noError := by
  obtain hkept | ⟨-, hf, f, ht, hi⟩ | ⟨d, rest, ha, -⟩ := errorIsSticky s t h he
  · exact hkept ▸ he
  · obtain ⟨w, hw, hd⟩ := step_accepts h hf ht
    obtain ⟨not_clrErr, not_zero⟩ := hclear w hw
    obtain hi | hi := hi
    · exact absurd (hi ▸ hd) not_clrErr
    · exact absurd (hi ▸ hd) not_zero
  · exact absurd ha (hreset d rest)

theorem run_error_stays (k : Nat) {s t : State} (he : s.errcode ≠ .noError) (hn : noClear k s)
    (h : Host.Core.run Sys2Proof.core k s = .next t) : t.errcode ≠ .noError := by
  induction k generalizing s with
  | zero =>
    cases h
    exact he
  | succ k ih =>
    obtain ⟨u, hu, -⟩ := step_to s
    obtain ⟨hclear, hreset, hrest⟩ := hn
    rw [stepped_eq hu] at hrest
    rw [run_succ hu] at h
    exact ih (step_error_stays hu he hclear hreset) hrest h

/-- Settles O55, by induction on the number of steps: the first CMD write that is not accepted records an error, and
that error stays. -/
theorem errorCheckAtTheEnd : Obligations.ErrorCheckAtTheEnd := by
  intro k
  induction k with
  | zero =>
    intro s t he _ h
    cases h
    exact iff_of_true he trivial
  | succ k ih =>
    intro s t he hn h
    obtain ⟨u, hu, -⟩ := step_to s
    obtain ⟨-, -, hrest⟩ := hn
    have hfirst := step_noError_iff hu he
    rw [run_succ hu] at h
    rw [stepped_eq hu] at hrest
    rw [allAccepted_succ hu, ← hfirst]
    by_cases hok : u.errcode = .noError
    · rw [ih u t hok hrest h, and_iff_right hok]
    · exact iff_of_false (run_error_stays k hok hrest h) fun ⟨hok', _⟩ => hok hok'

/-! ### The end of a run (R220) -/

theorem runEnded_eq_false_iff (s : State) :
    runEnded s = false ↔ (s.Quiet → ∃ e ∈ s.agenda, isHostStep e = true) := by
  rw [← Bool.not_eq_true, runEnded_iff, not_and']
  simp

/-- R220's end by the executable test for it. -/
theorem runEndsAt_iff {k : Nat} {s t : State} : RunEndsAt k s t ↔
    Host.Core.run Sys2Proof.core k s = .next t ∧ runEnded t = true ∧
      ∀ j < k, ∀ u, Host.Core.run Sys2Proof.core j s = .next u → runEnded u = false := by
  constructor
  · rintro ⟨hrun, hlast, hquiet, hfirst⟩
    exact ⟨hrun, (runEnded_iff t).2 ⟨hlast, hquiet⟩,
      fun j hj u hu => (runEnded_eq_false_iff u).2 (hfirst j hj u hu)⟩
  · rintro ⟨hrun, hended, hfirst⟩
    obtain ⟨hlast, hquiet⟩ := (runEnded_iff t).1 hended
    exact ⟨hrun, hlast, hquiet, fun j hj u hu => (runEnded_eq_false_iff u).1 (hfirst j hj u hu)⟩

theorem runEndsAt_zero {s : State} (h : runEnded s = true) : RunEndsAt 0 s s :=
  runEndsAt_iff.2 ⟨rfl, h, nofun⟩

theorem runEndsAt_succ {k : Nat} {s t u : State} (h : runEnded s = false) (hs : step s = .next u)
    (hend : RunEndsAt k u t) : RunEndsAt (k + 1) s t := by
  obtain ⟨hrun, hended, hfirst⟩ := runEndsAt_iff.1 hend
  refine runEndsAt_iff.2 ⟨(run_succ hs k).trans hrun, hended, fun j hj v hv => ?_⟩
  cases j with
  | zero =>
    cases hv
    exact h
  | succ j =>
    rw [run_succ hs] at hv
    exact hfirst j (by omega) v hv

/-- A run has one end: of two, the later would not be the first. -/
theorem runEndsAt_unique {j k : Nat} {s t u : State} (ht : RunEndsAt j s t) (hu : RunEndsAt k s u) :
    j = k ∧ t = u := by
  obtain ⟨hrun_t, hended_t, hfirst_t⟩ := runEndsAt_iff.1 ht
  obtain ⟨hrun_u, hended_u, hfirst_u⟩ := runEndsAt_iff.1 hu
  obtain hlt | rfl | hlt := Nat.lt_trichotomy j k
  · simp [hfirst_u j hlt t hrun_t] at hended_t
  · rw [hrun_t] at hrun_u
    cases hrun_u
    exact ⟨rfl, rfl⟩
  · simp [hfirst_t k hlt u hrun_u] at hended_u

/-- A bound on the steps a run still takes: one for each event, and one for the command in flight after the last. -/
def stepsLeft (s : State) : Nat := if runEnded s then 0 else s.agenda.length + 1

theorem stepsLeft_le (s : State) : stepsLeft s ≤ s.agenda.length + 1 := by
  unfold stepsLeft
  split <;> omega

/-- With nothing scheduled the step completes the command in flight (R219), and the run has ended. -/
theorem runEnded_of_step_nil {s u : State} (hs : step s = .next u) (ha : s.agenda = []) : runEnded u = true := by
  have hagenda : u.agenda = [] := by rw [step_agenda hs, ha, List.tail_nil]
  have hslot : u.inflight = none := by
    rw [step_complete (.inr ⟨ha, rfl⟩)] at hs
    cases hf : s.inflight with
    | none =>
      rw [complete_idle (s := schedule [] s) hf] at hs
      cases hs
      exact hf
    | some f =>
      rw [complete_inflight (s := schedule [] s) hf] at hs
      cases hs
      rfl
  simp [runEnded_iff, hagenda, hslot]

theorem stepsLeft_step_lt {s u : State} (h : runEnded s = false) (hs : step s = .next u) :
    stepsLeft u < stepsLeft s := by
  have hleft : stepsLeft s = s.agenda.length + 1 := by simp [stepsLeft, h]
  cases ha : s.agenda with
  | nil =>
    have hright : stepsLeft u = 0 := by simp [stepsLeft, runEnded_of_step_nil hs ha]
    omega
  | cons e rest =>
    have hlen : u.agenda.length = rest.length := by rw [step_agenda hs, ha, List.tail_cons]
    have hbound := stepsLeft_le u
    rw [hleft, ha, List.length_cons]
    omega

/-- Given the steps it needs, `runToEnd` finds the end of the run. -/
theorem runEndsAt_runToEnd (fuel : Nat) {s : State} (hfuel : stepsLeft s ≤ fuel) :
    ∃ k ≤ fuel, RunEndsAt k s (runToEnd fuel s) := by
  induction fuel generalizing s with
  | zero =>
    have hended : runEnded s = true := by simpa [stepsLeft] using hfuel
    exact ⟨0, le_refl 0, runEndsAt_zero hended⟩
  | succ fuel ih =>
    cases hended : runEnded s with
    | true =>
      rw [runToEnd_ended hended]
      exact ⟨0, by omega, runEndsAt_zero hended⟩
    | false =>
      obtain ⟨u, hu, -⟩ := step_to s
      have hless := stepsLeft_step_lt hended hu
      obtain ⟨k, hk, hend⟩ := ih (s := u) (by omega)
      rw [runToEnd_step hended hu]
      exact ⟨k + 1, by omega, runEndsAt_succ hended hu hend⟩

/-! ### What is observed at the end stays -/

theorem run_agenda (k : Nat) {s t : State} (h : Host.Core.run Sys2Proof.core k s = .next t) :
    t.agenda = s.agenda.drop k := by
  induction k generalizing s with
  | zero =>
    cases h
    rfl
  | succ k ih =>
    obtain ⟨u, hu, -⟩ := step_to s
    rw [run_succ hu] at h
    rw [ih h, step_agenda hu, List.drop_tail]

/-- What is neither a step of the host nor a reset is `Complete` (R7). -/
theorem event_eq_complete {e : Event} (hhost : isHostStep e = false) (hreset : ∀ d, e ≠ .reset d) : e = .complete := by
  cases e with
  | access acc => simp [isHostStep] at hhost
  | complete => rfl
  | reset d => exact absurd rfl (hreset d)

/-- With the slot free `Complete` is not enabled (R191): steps only take the pending ones from the agenda. -/
theorem run_quiet (k : Nat) {s : State} (hf : s.inflight = none) (hc : ∀ e ∈ s.agenda, e = .complete) :
    Host.Core.run Sys2Proof.core k s = .next (schedule (s.agenda.drop k) s) := by
  induction k generalizing s with
  | zero => rfl
  | succ k ih =>
    have hnext : s.agenda = .complete :: s.agenda.tail ∨ s.agenda = [] ∧ s.agenda.tail = [] := by
      cases ha : s.agenda with
      | nil => exact .inr ⟨rfl, rfl⟩
      | cons e rest => exact .inl (by rw [hc e (by simp [ha]), List.tail_cons])
    have hidle : step s = .next (schedule s.agenda.tail s) := idleBlockWaits s s.agenda.tail hf hnext
    rw [run_succ hidle, ih (s := schedule s.agenda.tail s) hf fun e he => hc e (List.mem_of_mem_tail he),
      schedule_agenda, List.drop_tail]
    rfl

/-- After the end of a run without a reset scheduled, nothing is observed to change. -/
theorem run_of_runEnded {s t : State} (hended : runEnded s = true) (hreset : ∀ d, Event.reset d ∉ s.agenda) {k : Nat}
    (h : Host.Core.run Sys2Proof.core k s = .next t) : observation t = observation s ∧ runEnded t = true := by
  obtain ⟨hlast, hquiet⟩ := (runEnded_iff s).1 hended
  have hc : ∀ e ∈ s.agenda, e = .complete := fun e he =>
    event_eq_complete (hlast e he) fun d hd => hreset d (hd ▸ he)
  rw [run_quiet k hquiet hc] at h
  cases h
  exact ⟨rfl, (runEnded_iff _).2 ⟨fun e he => hlast e (List.mem_of_mem_drop he), hquiet⟩⟩

/-- Settles O56: each step leaves fewer to take, so that `runToEnd` finds the end, and a block that is quiet and has no
host step ahead keeps what is observed. -/
theorem endOfRun : Obligations.EndOfRun := by
  intro s
  obtain ⟨k, hk, hend⟩ := runEndsAt_runToEnd (s.agenda.length + 1) (stepsLeft_le s)
  obtain ⟨hrun, hended, -⟩ := runEndsAt_iff.1 hend
  refine ⟨⟨k, hk, hend, fun j t ht => runEndsAt_unique ht hend⟩, fun hreset m t ht => ?_, ?_⟩
  · refine run_of_runEnded hended (fun d hd => hreset d ?_) ht
    have hagenda := run_agenda k hrun
    exact List.mem_of_mem_drop (hagenda ▸ hd)
  · rintro u ⟨hopa, hopb, hres, hy, hlena, hlenc, hstatus⟩ off
    exact hostRead_congr off hopa hopb hres hy hlena hlenc hstatus

/-! ### Timing (R218) -/

/-- Settles O60: both parameters are successors, and the table gives each command one of them. -/
theorem latencyTable : Obligations.LatencyTable := by
  refine ⟨Nat.succ_pos _, Nat.succ_pos _, rfl, rfl, fun n => ⟨rfl, rfl, rfl⟩, fun i hi => ?_⟩
  cases i with
  | gfMul | ghFinal | ghAad n | ghCt n => simp at hi
  | _ => rfl

end Sys2Proof.Proofs
